-- ==== Sys2Proof/Word.lean ====
section
/-!
DEFINITION. The word types of the core (spec/00_scope.md R4, R6, R7): bytes, 32-bit halves, 32-bit
command words, 64-bit lanes held as two halves, and the fixed-size arrays made of them.
-/

namespace Sys2Proof

/-- A byte (R4: the block is 128 of them). -/
abbrev Byte := BitVec 8

/-- A 32-bit half-word (R4 "half-word width 32 bits"). -/
abbrev Half := BitVec 32

/-- A 32-bit command word (30_encoding.md R90). -/
abbrev Word := BitVec 32

/-- A slot number as a command word carries it (30_encoding.md R91, bits [27:24]). -/
abbrev Ctx := BitVec 4

/-- R7: a lane is "a 64-bit value held as two 32-bit halves". -/
structure Lane where
  /-- the even-indexed word, bits 31..0 -/
  lo : Half
  /-- the odd-indexed word, bits 63..32 -/
  hi : Half
  deriving DecidableEq, Repr

/-- The chaining state `h[0..15]` (10_state.md R22). -/
abbrev Chain := Vector Half 16

/-- The working vector `v[0..31]` (10_state.md R31). -/
abbrev Working := Vector Half 32

/-- The message block `m[0..31]` (10_state.md R31). -/
abbrev Block := Vector Half 32

/-- The staging buffer `b[0..127]` (10_state.md R23). -/
abbrev Buffer := Vector Byte 128

end Sys2Proof
end

