-- ==== Sys2Proof/Syntax.lean ====
section
/-!
DEFINITION. The syntax of the core: the seven commands (spec/30_encoding.md R92 to R97), one constructor for each row of
opcode_table.json, and the lines of the assembler (R110 to R114).
-/

namespace Sys2Proof

/-- R97: the commands. Every operand has exactly the width of its field (R92 to R96). -/
inductive Instr where
  /-- INIT, format I (R92): slot, key supplied, key length, digest length -/
  | init (ctx : Ctx) (kp : Bool) (kk : Byte) (nn : Byte)
  /-- KEYB, format B (R93): slot, key byte -/
  | keyb (ctx : Ctx) (data : Byte)
  /-- UPDB, format B (R93): slot, message byte -/
  | updb (ctx : Ctx) (data : Byte)
  /-- FINAL, format N (R95): slot -/
  | final (ctx : Ctx)
  /-- RDDIG, format X (R94): slot, digest byte index -/
  | rddig (ctx : Ctx) (idx : Byte)
  /-- RDSTAT, format N (R95): slot -/
  | rdstat (ctx : Ctx)
  /-- RDCNT, format X (R94): slot, counter slice -/
  | rdcnt (ctx : Ctx) (idx : Byte)
  deriving DecidableEq, Repr

/-- R91: the slot a command names. -/
def Instr.ctx : Instr → Ctx
  | .init ctx _ _ _ => ctx
  | .keyb ctx _ => ctx
  | .updb ctx _ => ctx
  | .final ctx => ctx
  | .rddig ctx _ => ctx
  | .rdstat ctx => ctx
  | .rdcnt ctx _ => ctx

/-- R110 to R114: one assembler line, its numbers as written (before any check that they fit their fields). -/
inductive AsmLine where
  /-- `INIT ctx, nn` or `INIT ctx, nn, key=kk` (R110) -/
  | init (ctx nn : Nat) (key : Option Nat)
  /-- `KEYB ctx, byte` (R110) -/
  | keyb (ctx byte : Nat)
  /-- `UPDB ctx, byte` (R110) -/
  | updb (ctx byte : Nat)
  /-- `FINAL ctx` (R110) -/
  | final (ctx : Nat)
  /-- `RDDIG ctx, idx` (R110) -/
  | rddig (ctx idx : Nat)
  /-- `RDSTAT ctx` (R110) -/
  | rdstat (ctx : Nat)
  /-- `RDCNT ctx, k` (R110) -/
  | rdcnt (ctx k : Nat)
  /-- `.word 0x…` (R110) -/
  | rawWord (w : Nat)
  /-- `UPDATE ctx, x0 x1 …` (R111) -/
  | update (ctx : Nat) (bytes : List Nat)
  /-- `HASH ctx, nn, s` with an optional key (R112) -/
  | hash (ctx nn : Nat) (key : Option (List Nat)) (bytes : List Nat)
  /-- `KEY ctx, k0 …` (R113) -/
  | key (ctx : Nat) (bytes : List Nat)
  /-- `DIGEST ctx, nn` (R114) -/
  | digest (ctx nn : Nat)
  deriving DecidableEq, Repr

end Sys2Proof
end

