-- ==== Sys2Proof/WellFormed.lean ====
section
/-!
DEFINITION. Well-formedness. A command's operands have exactly the widths of their fields, and a range check "belongs to
the command's rule, not to decoding" (spec/30_encoding.md R96), so every `Instr` is well formed. What can be ill formed is
an assembler line: "An operand that does not fit its field (nn > 255, ctx > 15, byte > 255) is an assembler error" (R110).
-/

namespace Sys2Proof

/-- Every term of `Instr` is a command with an encoding (R96): nothing is left to check. -/
def Instr.wellFormed : Instr → Bool
  | .init _ _ _ _ => true
  | .keyb _ _ => true
  | .updb _ _ => true
  | .final _ => true
  | .rddig _ _ => true
  | .rdstat _ => true
  | .rdcnt _ _ => true

/-- R110: the slot number fits its 4-bit field. -/
def fitsCtx (n : Nat) : Bool := decide (n ≤ 15)

/-- R110: a digest length, key length, byte or index fits its 8-bit field. -/
def fitsByte (n : Nat) : Bool := decide (n ≤ 255)

/-- R110: a raw command word fits 32 bits (R90). -/
def fitsWord (n : Nat) : Bool := decide (n < 2 ^ 32)

/-- R110: every operand of the line fits its field. HASH gives the key's length by its bytes (R112): that the count must fit
the KK field is a DESIGN CHOICE (notes/assumptions/11.md). KEY has no KK field (R113): its bytes may be any number. An operand
that fits but is out of range (nn = 65) is well formed; the core refuses it. -/
def AsmLine.wellFormed : AsmLine → Bool
  | .init ctx nn keyLen => fitsCtx ctx && fitsByte nn && keyLen.all fitsByte
  | .keyb ctx byte => fitsCtx ctx && fitsByte byte
  | .updb ctx byte => fitsCtx ctx && fitsByte byte
  | .final ctx => fitsCtx ctx
  | .rddig ctx idx => fitsCtx ctx && fitsByte idx
  | .rdstat ctx => fitsCtx ctx
  | .rdcnt ctx k => fitsCtx ctx && fitsByte k
  | .rawWord w => fitsWord w
  | .update ctx bytes => fitsCtx ctx && bytes.all fitsByte
  | .hash ctx nn keyBytes bytes =>
      fitsCtx ctx && fitsByte nn && keyBytes.all (fun ks => fitsByte ks.length && ks.all fitsByte) && bytes.all fitsByte
  | .key ctx bytes => fitsCtx ctx && bytes.all fitsByte
  | .digest ctx nn => fitsCtx ctx && fitsByte nn

end Sys2Proof
end

