-- ==== Sys2Proof/Decode.lean ====
section
/-!
DEFINITION. Decoding and encoding of command words (spec/30_encoding.md R90 to R99, R101). Decoding is total on 32-bit
words and reads the word alone (R98, R101); a word that is no command is rejected under a name that says why (R99, R223).
The encoder is written from the same tables.
-/

namespace Sys2Proof

/-- Why a word is no command (R99, R223). Both answer IllegalCommand. -/
inductive DecodeError where
  /-- OP is 0x0 or 0x8..0xF -/
  | unassignedOpcode
  /-- OP is assigned and a bit its format reserves is 1 -/
  | reservedBitSet
  deriving DecidableEq, Repr

/-- R91: OP = w[31:28]. -/
def fieldOp (w : Word) : BitVec 4 := w.extractLsb' 28 4

/-- R96: CTX = w[27:24]. -/
def fieldCtx (w : Word) : Ctx := w.extractLsb' 24 4

/-- R96: KP = w[16]. -/
def fieldKp (w : Word) : Bool := w.getLsbD 16

/-- R96: KK = w[15:8]. -/
def fieldKk (w : Word) : Byte := w.extractLsb' 8 8

/-- R96: NN, DATA and IDX are w[7:0]. -/
def fieldLow (w : Word) : Byte := w.extractLsb' 0 8

/-- R97: one row of the match and mask table, with the operand fields of its format. -/
structure OpRow where
  pattern : Word
  mask : Word
  build : Word → Instr

/-- R97 row INIT, format I (R92). -/
def rowInit : OpRow :=
  ⟨0x10000000#32, 0xF0FE0000#32, fun w => .init (fieldCtx w) (fieldKp w) (fieldKk w) (fieldLow w)⟩

/-- R97 row KEYB, format B (R93). -/
def rowKeyb : OpRow := ⟨0x20000000#32, 0xF0FFFF00#32, fun w => .keyb (fieldCtx w) (fieldLow w)⟩

/-- R97 row UPDB, format B (R93). -/
def rowUpdb : OpRow := ⟨0x30000000#32, 0xF0FFFF00#32, fun w => .updb (fieldCtx w) (fieldLow w)⟩

/-- R97 row FINAL, format N (R95). -/
def rowFinal : OpRow := ⟨0x40000000#32, 0xF0FFFFFF#32, fun w => .final (fieldCtx w)⟩

/-- R97 row RDDIG, format X (R94). -/
def rowRddig : OpRow := ⟨0x50000000#32, 0xF0FFFF00#32, fun w => .rddig (fieldCtx w) (fieldLow w)⟩

/-- R97 row RDSTAT, format N (R95). -/
def rowRdstat : OpRow := ⟨0x60000000#32, 0xF0FFFFFF#32, fun w => .rdstat (fieldCtx w)⟩

/-- R97 row RDCNT, format X (R94). -/
def rowRdcnt : OpRow := ⟨0x70000000#32, 0xF0FFFF00#32, fun w => .rdcnt (fieldCtx w) (fieldLow w)⟩

/-- R97, in the order R98 tries them. -/
def opRows : List OpRow := [rowInit, rowKeyb, rowUpdb, rowFinal, rowRddig, rowRdstat, rowRdcnt]

/-- R97: "A word w is command X iff (w & mask_X) = match_X". -/
def OpRow.matches (r : OpRow) (w : Word) : Bool := w &&& r.mask == r.pattern

/-- R98: the first row the word matches gives the command; a word that matches none is rejected by name (R99). -/
def decode (w : Word) : Except DecodeError Instr :=
  match opRows.find? (fun r => r.matches w) with
  | some r => .ok (r.build w)
  | none => .error (if fieldOp w = 0#4 ∨ 8#4 ≤ fieldOp w then .unassignedOpcode else .reservedBitSet)

/-- The table's row of a command. -/
def Instr.row : Instr → OpRow
  | .init _ _ _ _ => rowInit
  | .keyb _ _ => rowKeyb
  | .updb _ _ => rowUpdb
  | .final _ => rowFinal
  | .rddig _ _ => rowRddig
  | .rdstat _ => rowRdstat
  | .rdcnt _ _ => rowRdcnt

/-- The operand bits of a command, each field at its place (R92 to R95). -/
def Instr.operandBits : Instr → Word
  | .init ctx kp kk nn =>
      ctx.setWidth 32 <<< 24 ||| (BitVec.ofBool kp).setWidth 32 <<< 16 ||| kk.setWidth 32 <<< 8 ||| nn.setWidth 32
  | .keyb ctx data => ctx.setWidth 32 <<< 24 ||| data.setWidth 32
  | .updb ctx data => ctx.setWidth 32 <<< 24 ||| data.setWidth 32
  | .final ctx => ctx.setWidth 32 <<< 24
  | .rddig ctx idx => ctx.setWidth 32 <<< 24 ||| idx.setWidth 32
  | .rdstat ctx => ctx.setWidth 32 <<< 24
  | .rdcnt ctx idx => ctx.setWidth 32 <<< 24 ||| idx.setWidth 32

/-- The command word of a command: its row's opcode, its operands, and 0 in every reserved bit (R91). -/
def encode (i : Instr) : Word := i.row.pattern ||| i.operandBits

/-- The instruction the decoder reads from a word numbered as opcode_table.json numbers it. Every command is exactly one
32-bit word (R90), so a number of 2^32 or more is no command word. -/
def decodeTableWord (nbits w : Nat) : Option Instr :=
  if w % 2 ^ nbits < 2 ^ 32 then
    match decode (BitVec.ofNat 32 (w % 2 ^ nbits)) with
    | .ok i => some i
    | .error _ => none
  else none

end Sys2Proof
end

