-- ==== Sys2Proof/Machine/WordPair.lean ====
section
/-!
DEFINITION. The 64-bit word-pair arithmetic (spec/43_word_pair_arith.md R200 to R208), on halves as the hardware
computes it, and the 64-bit value of a lane (00_scope.md R7).
-/

namespace Sys2Proof.Machine

/-- R7: the value `hi · 2^32 + lo` of a lane. -/
def laneValue (x : Lane) : BitVec 64 := x.hi ++ x.lo

/-- R7: the lane of a 64-bit value: low half `X[31:0]`, high half `X[63:32]`. -/
def laneOfValue (x : BitVec 64) : Lane := ⟨x.extractLsb' 0 32, x.extractLsb' 32 32⟩

/-- R200, `ADD64`: the exact 33-bit sum of the low halves, its bit 32 carried into the high halves. -/
def add64 (a b : Lane) : Lane :=
  let s : BitVec 33 := a.lo.setWidth 33 + b.lo.setWidth 33
  let cy : Half := (s.extractLsb' 32 1).setWidth 32
  ⟨s.extractLsb' 0 32, a.hi + b.hi + cy⟩

/-- R202, `XOR64`. -/
def xor64 (a b : Lane) : Lane := ⟨a.lo ^^^ b.lo, a.hi ^^^ b.hi⟩

/-- R203, `NOT64`. -/
def not64 (a : Lane) : Lane := ⟨~~~a.lo, ~~~a.hi⟩

/-- R204, `ROTR64`, for 1 ≤ n ≤ 63. -/
def rotr64 (a : Lane) (n : Nat) : Lane :=
  if n = 32 then ⟨a.hi, a.lo⟩
  else if n < 32 then
    ⟨a.lo >>> n ||| a.hi <<< (32 - n), a.hi >>> n ||| a.lo <<< (32 - n)⟩
  else
    let k := n - 32
    ⟨a.hi >>> k ||| a.lo <<< (32 - k), a.lo >>> k ||| a.hi <<< (32 - k)⟩

end Sys2Proof.Machine
end

