-- ==== Sys2Proof/Machine/Mixing.lean ====
section
/-!
DEFINITION. The mixing core (spec/42_mixing.md R180 to R185): the constants IV32 and SIGMA, the G function and the rounds.
-/

namespace Sys2Proof.Machine

/-- R180: `IV32[0..15]`, the initialisation vector as halves, low half first. -/
def iv32 : Chain :=
  #v[0xF3BCC908#32, 0x6A09E667#32, 0x84CAA73B#32, 0xBB67AE85#32,
     0xFE94F82B#32, 0x3C6EF372#32, 0x5F1D36F1#32, 0xA54FF53A#32,
     0xADE682D1#32, 0x510E527F#32, 0x2B3E6C1F#32, 0x9B05688C#32,
     0xFB41BD6B#32, 0x1F83D9AB#32, 0x137E2179#32, 0x5BE0CD19#32]

/-- R181: `SIGMA[0..11][0..15]`, the message schedule. -/
def sigma : Vector (Vector (Fin 16) 16) 12 :=
  #v[#v[0, 1, 2, 3, 4, 5, 6, 7, 8, 9, 10, 11, 12, 13, 14, 15],
     #v[14, 10, 4, 8, 9, 15, 13, 6, 1, 12, 0, 2, 11, 7, 5, 3],
     #v[11, 8, 12, 0, 5, 2, 15, 13, 10, 14, 3, 6, 7, 1, 9, 4],
     #v[7, 9, 3, 1, 13, 12, 11, 14, 2, 6, 5, 10, 4, 0, 15, 8],
     #v[9, 0, 5, 7, 2, 4, 10, 15, 14, 1, 11, 12, 6, 8, 3, 13],
     #v[2, 12, 6, 10, 0, 11, 8, 3, 4, 13, 7, 5, 15, 14, 1, 9],
     #v[12, 5, 1, 15, 14, 13, 4, 10, 0, 7, 6, 3, 9, 2, 8, 11],
     #v[13, 11, 7, 14, 12, 1, 3, 9, 5, 0, 15, 4, 8, 6, 2, 10],
     #v[6, 15, 14, 9, 11, 3, 0, 8, 12, 2, 13, 7, 1, 4, 10, 5],
     #v[10, 2, 8, 4, 7, 6, 1, 5, 15, 11, 9, 14, 3, 12, 13, 0],
     #v[0, 1, 2, 3, 4, 5, 6, 7, 8, 9, 10, 11, 12, 13, 14, 15],
     #v[14, 10, 4, 8, 9, 15, 13, 6, 1, 12, 0, 2, 11, 7, 5, 3]]

/-- R185: lane `V(i)` of a 32-word array is words `2i` and `2i + 1`. -/
def laneAt (w : Vector Half 32) (i : Fin 16) : Lane := ⟨w[2 * i.val], w[2 * i.val + 1]⟩

/-- R7, R185: `V(i) <- x`. -/
def setLane (w : Vector Half 32) (i : Fin 16) (x : Lane) : Vector Half 32 :=
  (w.set (2 * i.val) x.lo).set (2 * i.val + 1) x.hi

/-- R182: `G(a, b, c, d, X, Y)`, its eight steps in order, each on the values the earlier ones wrote. -/
def mixG (a b c d : Fin 16) (x y : Lane) (v : Working) : Working :=
  let v := setLane v a (add64 (add64 (laneAt v a) (laneAt v b)) x)
  let v := setLane v d (rotr64 (xor64 (laneAt v d) (laneAt v a)) 32)
  let v := setLane v c (add64 (laneAt v c) (laneAt v d))
  let v := setLane v b (rotr64 (xor64 (laneAt v b) (laneAt v c)) 24)
  let v := setLane v a (add64 (add64 (laneAt v a) (laneAt v b)) y)
  let v := setLane v d (rotr64 (xor64 (laneAt v d) (laneAt v a)) 16)
  let v := setLane v c (add64 (laneAt v c) (laneAt v d))
  setLane v b (rotr64 (xor64 (laneAt v b) (laneAt v c)) 63)

/-- R183: the lane quadruple (a, b, c, d) of G call i: four columns, then four diagonals. -/
def quadruple : Vector (Fin 16 × Fin 16 × Fin 16 × Fin 16) 8 :=
  #v[(0, 4, 8, 12), (1, 5, 9, 13), (2, 6, 10, 14), (3, 7, 11, 15),
     (0, 5, 10, 15), (1, 6, 11, 12), (2, 7, 8, 13), (3, 4, 9, 14)]

/-- R183: G call i of round r takes `M(s[2i])` as X and `M(s[2i+1])` as Y, where s is row r of SIGMA. -/
def gCall (r : Fin 12) (i : Fin 8) (m : Block) (v : Working) : Working :=
  let q := quadruple[i.val]
  let s := sigma[r.val]
  mixG q.1 q.2.1 q.2.2.1 q.2.2.2 (laneAt m s[2 * i.val]) (laneAt m s[2 * i.val + 1]) v

/-- R183: `ROUND(r)`, the eight G calls in order. -/
def mixRound (r : Fin 12) (m : Block) (v : Working) : Working :=
  ([0, 1, 2, 3, 4, 5, 6, 7] : List (Fin 8)).foldl (fun v i => gCall r i m v) v

/-- R184: the schedule, ROUND(0) to ROUND(11) in order. -/
def allRounds (m : Block) (v : Working) : Working :=
  ([0, 1, 2, 3, 4, 5, 6, 7, 8, 9, 10, 11] : List (Fin 12)).foldl (fun v r => mixRound r m v) v

end Sys2Proof.Machine
end

