-- ==== Sys2Proof/Config.lean ====
section
/-!
DEFINITION. What is fixed for the machine: its identity (spec/00_scope.md R1), its fixed sizes (R4) and its one open
parameter NCTX (R5). The spec leaves no value of any command open (30_encoding.md R104), so there is no free value here.
-/

namespace Sys2Proof.Config

/-- R1: the name this spec gives the hardware (92_eei_decisions.md D25). -/
def coreName : String := "BLAKE2b core (thhofer/blake2-angular CORE)"

/-- R1: the version this spec gives the hardware; there is no vendor. -/
def coreVersion : String := "B2A v7"

/-- R4: block size BB in bytes. -/
abbrev blockBytes : Nat := 128

/-- R4: rounds per compression. -/
abbrev rounds : Nat := 12

/-- R4: G calls per round. -/
abbrev gPerRound : Nat := 8

/-- R4: the largest digest length NN. -/
abbrev maxDigest : Nat := 64

/-- R4: the largest key length KK. -/
abbrev maxKey : Nat := 64

/-- R4: the byte counter's width in bits (D9). -/
abbrev counterBits : Nat := 128

/-- R5: the bounds of the open parameter NCTX. -/
abbrev minSlots : Nat := 1

/-- R5: the bounds of the open parameter NCTX. -/
abbrev maxSlots : Nat := 16

/-- The NCTX of `State.reset`. DESIGN CHOICE (notes/assumptions/1.md), unsafe: the spec leaves NCTX open in 1..16 (R5).
Every meaning takes NCTX from the length of the slot array, and `State.resetFor` takes it as an argument, so no meaning
depends on this number. -/
abbrev nctx : Nat := 16

end Sys2Proof.Config
end

