-- ==== Sys2Proof/Machine/State.lean ====
section
/-!
DEFINITION. The state of the core (spec/10_state.md R20 to R38): context slots, the internal storage of a compression,
the response port, and the model's own record of what the host drives and has taken. Plain data throughout.
-/

namespace Sys2Proof.Machine

/-- R21: the state `st` of a slot. Its 2-bit codes are `SlotState.code`. -/
inductive SlotState where
  /-- no context exists in the slot -/
  | idle
  /-- INIT supplied a key and its bytes are still arriving -/
  | keying
  /-- the context is ready for UPDB and FINAL -/
  | absorb
  /-- FINAL has run and the digest can be read -/
  | done
  deriving DecidableEq, Repr

/-- R20: one context slot, "these fields, and no others". -/
structure Slot where
  /-- slot state (R21) -/
  st : SlotState
  /-- chaining state (R22) -/
  h : Chain
  /-- staging buffer (R23) -/
  b : Buffer
  /-- byte counter (R24) -/
  t : BitVec 128
  /-- buffer fill, 0..128 (R25) -/
  c : BitVec 8
  /-- digest length in bytes, 1..64 (R26) -/
  nn : BitVec 7
  /-- 1 if INIT supplied a key (R27) -/
  kp : Bool
  /-- key length, 0 when no key (R27) -/
  kk : BitVec 7
  deriving DecidableEq, Repr

/-- R30, R31: the internal storage of one compression. `seq` is the sequencer pair (r, i); it "exists only during a
compression", so it is `none` whenever no compression is in progress. -/
structure Engine where
  /-- working vector (R31) -/
  v : Working
  /-- message block (R31) -/
  m : Block
  /-- round index r and G index i (R30) -/
  seq : Option (Fin 12 × Fin 8)
  deriving DecidableEq, Repr

/-- 60_exceptions.md R220: the error codes. Their 4-bit values are `ErrorCode.code`; 5..15 are never produced. -/
inductive ErrorCode where
  /-- no error -/
  | ok
  /-- an operand outside its range (R221) -/
  | invalidParameter
  /-- a command the slot's state forbids (R222) -/
  | invalidState
  /-- a word that decodes to no command (R223) -/
  | illegalCommand
  /-- the byte counter would pass 2^128 - 1 (R224) -/
  | counterRange
  deriving DecidableEq, Repr

/-- 30_encoding.md R100: a response, ERR and DATA. -/
structure Response where
  err : ErrorCode
  data : BitVec 32
  deriving DecidableEq, Repr

/-- 30_encoding.md R102: what the host drives on the port's inputs at one step. -/
structure PortIn where
  /-- `rst` -/
  rst : Bool
  /-- `cmd_valid` -/
  cmdValid : Bool
  /-- `cmd_word` -/
  cmdWord : Word
  /-- `rsp_ready` -/
  rspReady : Bool
  deriving DecidableEq, Repr

/-- The machine. `slots`, `engine` and `rsp` are the core's; `input` and `delivered` are the model's own fields for the
outside (notes/assumptions/4.md, notes/assumptions/6.md). NCTX is the length of `slots` (notes/assumptions/1.md). -/
structure State where
  /-- R20: the context slots `K[0..NCTX-1]` -/
  slots : List Slot
  /-- R30, R31: the internal storage of a compression -/
  engine : Engine
  /-- R38, 30_encoding.md R103: the response accepted but not yet delivered, if any -/
  rsp : Option Response
  /-- the model's own: what the host will drive, next step first -/
  input : List PortIn
  /-- the model's own: the responses the host has taken, oldest first (70_reset_and_hazards.md R259) -/
  delivered : List Response
  deriving DecidableEq, Repr

/-- The machine stops. The core has no trap (60_exceptions.md R227): these are the calls R8 of 00_scope.md names "a
specification error", which "never arises". No state that meets the invariant `State.Inv` reaches one. -/
inductive Fault where
  /-- KEYB or UPDB would write a buffer address of 128 or more (00_scope.md R8). Raised by KEYB and UPDB in a state whose
  fill `c` passes 128, which no run reaches. Safe: the model stops where the spec gives no effect. -/
  | bufferAddress
  /-- RDDIG would read past the 64 bytes of the chaining state (20_memory.md R63). Raised by RDDIG in a DONE slot whose
  `nn` passes 64, which no run reaches. Safe: the model stops where the spec gives no effect. -/
  | digestIndex
  deriving DecidableEq, Repr

/-- The model has no meaning for the instruction. -/
inductive Refusal where
  /-- an arm of `exec` without a meaning, named by its mnemonic. No arm raises it: all seven commands have a meaning. Safe. -/
  | notModelled (mnemonic : String)
  deriving DecidableEq, Repr

/-- R38: a slot after reset. `st` is IDLE; the other fields "hold no value" there, and the zeros are a DESIGN CHOICE
(notes/assumptions/2.md), unsafe, unobservable by R28. -/
def Slot.reset : Slot :=
  { st := .idle
    h := Vector.replicate 16 0
    b := Vector.replicate 128 0
    t := 0
    c := 0
    nn := 0
    kp := false
    kk := 0 }

/-- R38: the internal storage after reset. No compression is in progress (R30); the zeros of `v` and `m` are a DESIGN
CHOICE (notes/assumptions/3.md), unsafe, unobservable by R31. -/
def Engine.reset : Engine :=
  { v := Vector.replicate 32 0
    m := Vector.replicate 32 0
    seq := none }

/-- 70_reset_and_hazards.md R250, R251: the machine right after reset, for each NCTX (R5): every slot IDLE, no response
pending, nothing yet driven by the host and nothing delivered to it. -/
def State.resetFor (nctx : Nat) : State :=
  { slots := List.replicate nctx Slot.reset
    engine := Engine.reset
    rsp := none
    input := []
    delivered := [] }

/-- The machine right after reset, at the NCTX of Config (DESIGN CHOICE 16, notes/assumptions/1.md, unsafe). -/
def State.reset : State := State.resetFor Config.nctx

end Sys2Proof.Machine
end

