-- ==== Sys2Proof/Machine/Ops.lean ====
section
/-!
DEFINITION. The named operations over slots, buffer and response port: selecting and writing a slot (spec/10_state.md R39),
`MemRead` and `MemWrite` on the buffer (00_scope.md R8, 20_memory.md R61 to R65), the answer of a command (`respond`) and
raising an error (`raise`, 60_exceptions.md R226). The core has no trap: an error is an answer, nothing is saved, and there
is nothing to return from (R227).
-/

namespace Sys2Proof.Machine

/-- The outcome of a command. -/
abbrev Result := Host.Outcome State Fault Refusal

/-- R8: `MemRead(addr, n)`, n bytes of the buffer as a little-endian number of 8n bits. A call with addr + n > 128 "is a
specification error and never arises": the proof argument rules it out. -/
def memRead (b : Buffer) (addr : Nat) : (n : Nat) → addr + n ≤ 128 → BitVec (8 * n)
  | 0, _ => 0#0
  | n + 1, h => memRead b (addr + 1) n (by omega) ++ b[addr]

/-- R8: `MemWrite(addr, n, x)`, least significant byte first. -/
def memWrite (b : Buffer) (addr : Nat) : (n : Nat) → addr + n ≤ 128 → BitVec (8 * n) → Buffer
  | 0, _, _ => b
  | n + 1, h, x => memWrite (b.set addr (x.setWidth 8)) (addr + 1) n (by omega) ((x >>> 8).setWidth (8 * n))

/-- 40_context_commands.md R123: `for j in c..127: b[j] <- 0x00`. -/
@[irreducible] def zeroFrom (b : Buffer) (c : Nat) : Buffer := Vector.ofFn fun j => if j.val < c then b[j.val] else 0

/-- 20_memory.md R63: digest byte `D[i] = (h[i >> 2] >> (8 * (i & 3)))[7:0]`, for i in 0..63. -/
def digestByte (h : Chain) (i : Nat) (hi : i < 64) : Byte := (h[i / 4] >>> (8 * (i % 4))).setWidth 8

/-- R20, R39: the slot a command names, if it exists. `none` is CTX ≥ NCTX. -/
def State.slot? (s : State) (ctx : Ctx) : Option Slot := s.slots[ctx.toNat]?

/-- R39: write the slot a command names, and no other. -/
def State.setSlot (s : State) (ctx : Ctx) (k : Slot) : State := { s with slots := s.slots.set ctx.toNat k }

/-- 30_encoding.md R100: the command's response, offered on the response port. -/
def State.respond (s : State) (err : ErrorCode) (data : BitVec 32) : State := { s with rsp := some ⟨err, data⟩ }

/-- R8, 60_exceptions.md R226: `raise E` ends the command with error E and DATA = 0; nothing else is written. -/
def State.raise (s : State) (e : ErrorCode) : Result := .next (s.respond e 0)

/-- 60_exceptions.md R225 step 2: every command first rejects CTX ≥ NCTX with InvalidParameter (R221 a). -/
def withSlot (ctx : Ctx) (s : State) (f : Slot → Result) : Result :=
  match s.slot? ctx with
  | none => s.raise .invalidParameter
  | some k => f k

/-- The end of a command that writes its slot: the new slot, then response OK with DATA = 0 (R100). -/
def State.finish (s : State) (ctx : Ctx) (k : Slot) : Result := .next ((s.setSlot ctx k).respond .ok 0)

/-- The end of a read command: response OK with its data, and nothing written (20_memory.md R66). -/
def State.reply (s : State) (data : BitVec 32) : Result := .next (s.respond .ok data)

end Sys2Proof.Machine
end

