-- ==== Sys2Proof/Machine/Compression.lean ====
section
/-!
DEFINITION. The block compression engine (spec/41_compression.md R160 to R166): seeding, message load, the sequencer that
walks the 96 G calls (10_state.md R30, 42_mixing.md R184), and the feed-forward. It is internal: only UPDB and FINAL run it. The two
definitions that hold the 96 calls are irreducible, so that no elaboration unfolds them by accident; the kernel evaluates them.
-/

namespace Sys2Proof.Machine

/-- R160: the working vector before the rounds. The counter's low 64 bits go into lane 12 (words 24, 25), its high 64 bits
into lane 13 (words 26, 27) (90_conflicts.md C1); the final flag complements lane 14 alone (R163, C2). -/
def seedWorking (h : Chain) (t : BitVec 128) (last : Bool) : Working :=
  let v : Working := Vector.ofFn fun i => if hi : i.val < 16 then h[i.val] else iv32[i.val - 16]
  let v := v.set 24 (v[24] ^^^ t.extractLsb' 0 32)
  let v := v.set 25 (v[25] ^^^ t.extractLsb' 32 32)
  let v := v.set 26 (v[26] ^^^ t.extractLsb' 64 32)
  let v := v.set 27 (v[27] ^^^ t.extractLsb' 96 32)
  if last then setLane v 14 (not64 (laneAt v 14)) else v

/-- R161, 20_memory.md R62: `m[j] = MemRead(4j, 4)`. All 128 bytes are read, whatever `c` is. -/
def loadBlock (b : Buffer) : Block := Vector.ofFn fun j => memRead b (4 * j.val) 4 (by omega)

/-- R162: the engine at the start of a compression, the sequencer at (0, 0). -/
def Engine.start (h : Chain) (b : Buffer) (t : BitVec 128) (last : Bool) : Engine :=
  { v := seedWorking h t last
    m := loadBlock b
    seq := some (0, 0) }

/-- R30: the sequencer pair after (r, i): i counts 0..7 within a round, r counts 0..11; after (11, 7) it is gone. -/
def nextSeq (r : Fin 12) (i : Fin 8) : Option (Fin 12 × Fin 8) :=
  if hi : i.val + 1 < 8 then some (r, ⟨i.val + 1, hi⟩)
  else if hr : r.val + 1 < 12 then some (⟨r.val + 1, hr⟩, 0)
  else none

/-- R30: one step of the sequencer, one G call. -/
def Engine.tick (e : Engine) : Engine :=
  match e.seq with
  | none => e
  | some (r, i) => { v := gCall r i e.m e.v, m := e.m, seq := nextSeq r i }

/-- n steps of the sequencer. -/
def Engine.ticks : Nat → Engine → Engine
  | 0, e => e
  | n + 1, e => Engine.ticks n e.tick

/-- R162, R184: the engine after the 96 G calls of a compression. -/
@[irreducible] def Engine.compressed (h : Chain) (b : Buffer) (t : BitVec 128) (last : Bool) : Engine :=
  (Engine.start h b t last).ticks 96

/-- R164: `h[i] ^ v[i] ^ v[i + 16]` for i in 0..15 (90_conflicts.md C3). -/
def feedForward (h : Chain) (v : Working) : Chain := Vector.ofFn fun i => h[i.val] ^^^ v[i.val] ^^^ v[i.val + 16]

/-- R162: COMPRESS as a function of what it reads (R165): the new chaining state. -/
@[irreducible] def compressChain (h : Chain) (b : Buffer) (t : BitVec 128) (last : Bool) : Chain :=
  feedForward h (Engine.compressed h b t last).v

/-- R162, R165: COMPRESS on a slot writes the slot's chaining state and nothing else of it. -/
def Slot.compress (k : Slot) (last : Bool) : Slot := { k with h := compressChain k.h k.b k.t last }

/-- R165: the internal storage a compression of slot k leaves. -/
def State.runEngine (s : State) (k : Slot) (last : Bool) : State :=
  { s with engine := Engine.compressed k.h k.b k.t last }

end Sys2Proof.Machine
end

