-- ==== Sys2Proof/Machine/Flags.lean ====
section
/-!
DEFINITION. The core has no condition codes and no sticky flags (spec/10_state.md R34). What a host sees of the state is
computed: the codes of slot states and errors (R21, 60_exceptions.md R220), the STATUS view (R35), the counter view (R36)
and the outputs of the port (30_encoding.md R102, R103, 70_reset_and_hazards.md R250).
-/

namespace Sys2Proof.Machine

/-- R21: the encoding of `st` as STATUS reads it. -/
def SlotState.code : SlotState → BitVec 2
  | .idle => 0
  | .keying => 1
  | .absorb => 2
  | .done => 3

/-- R220: the 4-bit error code. -/
def ErrorCode.code : ErrorCode → BitVec 4
  | .ok => 0
  | .invalidParameter => 1
  | .invalidState => 2
  | .illegalCommand => 3
  | .counterRange => 4

/-- R35, R125: the STATUS word of a slot; 0 in IDLE. -/
def Slot.status (k : Slot) : BitVec 32 :=
  if k.st = .idle then 0
  else
    k.kk.setWidth 32 <<< 24 ||| (BitVec.ofBool k.kp).setWidth 32 <<< 23 ||| k.nn.setWidth 32 <<< 16
      ||| k.c.setWidth 32 <<< 8 ||| k.st.code.setWidth 32

/-- R36: the counter slice `t[32k+31 : 32k]`. -/
def counterSlice (t : BitVec 128) (k : Nat) : BitVec 32 := t.extractLsb' (32 * k) 32

/-- R103, R250: `cmd_ready`, 0 while `rst` = 1 and from a command's acceptance until its response is delivered. -/
def State.cmdReady (s : State) (rst : Bool) : Bool := !rst && s.rsp.isNone

/-- R102, R250: `rsp_valid`, 0 while `rst` = 1. -/
def State.rspValid (s : State) (rst : Bool) : Bool := !rst && s.rsp.isSome

/-- R102, R220: `rsp_err`, while a response is pending; with none pending the spec gives it no value and the model none
(DESIGN CHOICE, notes/assumptions/4.md). -/
def State.rspErr (s : State) : Option (BitVec 4) := s.rsp.map fun r => r.err.code

/-- R102, R100: `rsp_data`, while a response is pending; with none pending as `rspErr`. -/
def State.rspData (s : State) : Option (BitVec 32) := s.rsp.map fun r => r.data

end Sys2Proof.Machine
end

