-- ==== Sys2Proof/Machine/Operands.lean ====
section
/-!
DEFINITION. The operand checks of the commands (spec/60_exceptions.md R221, R224) and the operands that enter a
computation (40_context_commands.md R120). The fields themselves are read by the decoder (30_encoding.md R96).
-/

namespace Sys2Proof.Machine

/-- R221 b: NN ∈ 1..64. -/
def nnInRange (nn : Byte) : Bool := decide (1 ≤ nn.toNat ∧ nn.toNat ≤ 64)

/-- R221 c and d: KK ∈ 1..64 with a key, KK = 0 without one. -/
def kkInRange (kp : Bool) (kk : Byte) : Bool :=
  if kp then decide (1 ≤ kk.toNat ∧ kk.toNat ≤ 64) else decide (kk = 0)

/-- R120: the parameter block `0x01010000 ^ (KK << 8) ^ NN`. -/
def paramWord (kk nn : Byte) : Half := 0x01010000#32 ^^^ (kk.setWidth 32 <<< 8) ^^^ nn.setWidth 32

/-- R224: adding n bytes would take the counter past 2^128 - 1. -/
def counterWouldPass (t : BitVec 128) (n : Nat) : Bool := decide (2 ^ 128 - 1 < t.toNat + n)

end Sys2Proof.Machine
end

