-- ==== Sys2Proof/Machine/Context.lean ====
section
/-!
DEFINITION. The meanings of the seven commands (spec/40_context_commands.md R120 to R126), each with its checks in the order
of 60_exceptions.md R225 and no write before the last check (R226).
-/

namespace Sys2Proof.Machine

/-- R120: the context INIT creates. NN and KK have passed their checks, so their 7-bit registers hold them exactly. -/
def freshSlot (kp : Bool) (kk nn : Byte) : Slot :=
  { st := if kp then .keying else .absorb
    h := iv32.set 0 (iv32[0] ^^^ paramWord kk nn)
    b := Vector.replicate 128 0
    t := 0
    c := 0
    nn := nn.setWidth 7
    kp := kp
    kk := kk.setWidth 7 }

/-- R120, INIT: accepted in every state of the slot; the previous context is discarded. -/
def execInit (ctx : Ctx) (kp : Bool) (kk nn : Byte) (s : State) : Result :=
  withSlot ctx s fun _ =>
    if !nnInRange nn then s.raise .invalidParameter
    else if !kkInRange kp kk then s.raise .invalidParameter
    else s.finish ctx (freshSlot kp kk nn)

/-- R121, R122: `b[c] <- DATA; c <- c + 1`, for c < 128 (00_scope.md R8). -/
def Slot.putByte (k : Slot) (data : Byte) (h : k.c.toNat + 1 ≤ 128) : Slot :=
  { k with b := memWrite k.b k.c.toNat 1 h data, c := k.c + 1 }

/-- R121: the KK-th key byte completes the key block: the buffer counts as full and the slot moves to ABSORB. -/
def Slot.completeKey (k : Slot) : Slot :=
  if k.c = k.kk.setWidth 8 then { k with c := 128, st := .absorb } else k

/-- R121, KEYB. -/
def execKeyb (ctx : Ctx) (data : Byte) (s : State) : Result :=
  withSlot ctx s fun k =>
    if k.st ≠ .keying then s.raise .invalidState
    else if h : k.c.toNat + 1 ≤ 128 then s.finish ctx (k.putByte data h).completeKey
    else .fault .bufferAddress

/-- R122: the full block, counted before it is compressed as a non-final block, and the buffer empty after it. -/
def Slot.flush (k : Slot) : Slot := { ({ k with t := k.t + 128 } : Slot).compress false with c := 0 }

/-- R122, UPDB: the look-ahead rule. A full buffer is compressed when one more byte arrives, and the byte is staged. -/
def execUpdb (ctx : Ctx) (data : Byte) (s : State) : Result :=
  withSlot ctx s fun k =>
    if k.st ≠ .absorb then s.raise .invalidState
    else if k.c = 128 then
      if counterWouldPass k.t 128 then s.raise .counterRange
      else
        (s.runEngine { k with t := k.t + 128 } false).finish ctx
          (k.flush.putByte data (by simp [Slot.flush]))
    else if h : k.c.toNat + 1 ≤ 128 then s.finish ctx (k.putByte data h)
    else .fault .bufferAddress

/-- R123: the slot as FINAL compresses it: the true total length counted, the rest of the buffer zeroed. -/
def Slot.padded (k : Slot) : Slot :=
  { k with t := k.t + k.c.setWidth 128, b := zeroFrom k.b k.c.toNat, c := 128 }

/-- R123, FINAL: exactly one final compression, which latches the digest in `h`. -/
def execFinal (ctx : Ctx) (s : State) : Result :=
  withSlot ctx s fun k =>
    if k.st ≠ .absorb then s.raise .invalidState
    else if counterWouldPass k.t k.c.toNat then s.raise .counterRange
    else (s.runEngine k.padded true).finish ctx { k.padded.compress true with st := .done }

/-- R124, RDDIG: the state check comes before the index check (R225). -/
def execRddig (ctx : Ctx) (idx : Byte) (s : State) : Result :=
  withSlot ctx s fun k =>
    if k.st ≠ .done then s.raise .invalidState
    else if k.nn.toNat ≤ idx.toNat then s.raise .invalidParameter
    else if h : idx.toNat < 64 then s.reply ((digestByte k.h idx.toNat h).setWidth 32)
    else .fault .digestIndex

/-- R125, RDSTAT: accepted in every state. -/
def execRdstat (ctx : Ctx) (s : State) : Result :=
  withSlot ctx s fun k => s.reply k.status

/-- R126, RDCNT. -/
def execRdcnt (ctx : Ctx) (idx : Byte) (s : State) : Result :=
  withSlot ctx s fun k =>
    if k.st = .idle then s.raise .invalidState
    else if 3 < idx.toNat then s.raise .invalidParameter
    else s.reply (counterSlice k.t idx.toNat)

end Sys2Proof.Machine
end

