-- ==== Sys2Proof/Machine/Dispatch.lean ====
section
/-!
DEFINITION. One arm for each command (spec/30_encoding.md R97).
-/

namespace Sys2Proof.Machine

def exec (i : Instr) (s : State) : Host.Outcome State Fault Refusal :=
  match i with
  | .init ctx kp kk nn => Sys2Proof.Machine.execInit ctx kp kk nn s
  | .keyb ctx data => Sys2Proof.Machine.execKeyb ctx data s
  | .updb ctx data => Sys2Proof.Machine.execUpdb ctx data s
  | .final ctx => Sys2Proof.Machine.execFinal ctx s
  | .rddig ctx idx => Sys2Proof.Machine.execRddig ctx idx s
  | .rdstat ctx => Sys2Proof.Machine.execRdstat ctx s
  | .rdcnt ctx idx => Sys2Proof.Machine.execRdcnt ctx idx s

end Sys2Proof.Machine
end

