-- ==== Sys2Proof/Machine/Port.lean ====
section
/-!
DEFINITION. The host port (spec/30_encoding.md R100 to R105, 70_reset_and_hazards.md R250 to R259): acceptance, delivery
and reset, and what one sampled port event does.
-/

namespace Sys2Proof.Machine

/-- R98, R104: accepting a command word: decode it, then run it; a word that is no command answers IllegalCommand. -/
def acceptWord (w : Word) (s : State) : Result :=
  match decode w with
  | .ok i => exec i s
  | .error _ => s.raise .illegalCommand

/-- R102: the pending response is delivered. -/
def State.deliver (s : State) : State :=
  match s.rsp with
  | none => s
  | some r => { s with rsp := none, delivered := s.delivered ++ [r] }

/-- R250: reset puts every slot in IDLE and discards an undelivered response. NCTX is a build parameter and stays (R37). -/
def State.onReset (s : State) : State :=
  { s with slots := List.replicate s.slots.length Slot.reset, engine := Engine.reset, rsp := none }

/-- One sampled port event (notes/assumptions/4.md). While `rst` is 1 nothing is accepted or delivered (R250). A pending
response is delivered when `rsp_ready` is 1, and no command is accepted until it has been (R103); with no response pending
a command is accepted when `cmd_valid` is 1 (R102). Otherwise the core waits (R251). -/
def portStep (p : PortIn) (s : State) : Result :=
  if p.rst then .next s.onReset
  else if s.rspValid p.rst then
    if p.rspReady then .next s.deliver else .next s
  else if p.cmdValid && s.cmdReady p.rst then acceptWord p.cmdWord s
  else .next s

/-- The host drives nothing: every input 0. -/
def PortIn.quiet : PortIn := { rst := false, cmdValid := false, cmdWord := 0, rspReady := false }

/-- The host offers a command word (R105). -/
def PortIn.offer (w : Word) : PortIn := { rst := false, cmdValid := true, cmdWord := w, rspReady := false }

/-- The host takes a response (R105). -/
def PortIn.take : PortIn := { rst := false, cmdValid := false, cmdWord := 0, rspReady := true }

/-- The host asserts reset (R105). -/
def PortIn.reset : PortIn := { rst := true, cmdValid := false, cmdWord := 0, rspReady := false }

/-- The next sampled event, taken off the input list; a host that has nothing more to do drives nothing. -/
def State.nextEvent (s : State) : PortIn × State :=
  match s.input with
  | [] => (PortIn.quiet, s)
  | p :: rest => (p, { s with input := rest })

/-- What the host drives to issue words one by one and take each response (R103, R105). -/
def drive : List Word → List PortIn
  | [] => []
  | w :: ws => PortIn.offer w :: PortIn.take :: drive ws

/-- R259: a run of commands, each response delivered before the next command; it stops at a fault. -/
def runCommands : List Instr → State → Result
  | [], s => .next s
  | i :: is, s =>
    match exec i s with
    | .next s' => runCommands is s'.deliver
    | .fault f => .fault f
    | .refused r => .refused r

end Sys2Proof.Machine
end

