-- ==== Sys2Proof/Machine/Step.lean ====
section
/-!
DEFINITION. The step: one sampled port event (spec/30_encoding.md R102 to R104; notes/assumptions/4.md).
-/

namespace Sys2Proof.Machine

/-- One step of the machine. -/
def step (s : State) : Host.Outcome State Fault Refusal := portStep s.nextEvent.1 s.nextEvent.2

/-- The state whose next step accepts the word w: the word is offered on the port, and no response is pending, since a
pending one keeps `cmd_ready` at 0 (R103; notes/assumptions/5.md). -/
def State.withFetchWord (s : State) (nbits w : Nat) : State :=
  { s with rsp := none, input := PortIn.offer (BitVec.ofNat 32 (w % 2 ^ nbits)) :: s.input }

end Sys2Proof.Machine
end

