-- ==== Sys2Proof/Machine/Assembler.lean ====
section
/-!
DEFINITION. The assembler (spec/30_encoding.md R110 to R114): the pseudo-instructions' expansions, the words a line
assembles to, and the reading of a line of text. The text's details that R110 leaves open (blanks, letter case, empty
strings) are notes/assumptions/11.md.
-/

namespace Sys2Proof.Machine

/-- R111: `UPDATE ctx, s`, one UPDB for each byte, in order. -/
def updateCmds (ctx : Ctx) (bytes : List Byte) : List Instr := bytes.map (.updb ctx)

/-- R113: `KEY ctx, k0 …`, one KEYB for each byte, in order; R113 bounds their number by nothing. No byte expands to
nothing: DESIGN CHOICE (notes/assumptions/11.md), since R113 shows one byte or more. -/
def keyCmds (ctx : Ctx) (bytes : List Byte) : List Instr := bytes.map (.keyb ctx)

/-- R114: `DIGEST ctx, nn`, RDDIG of the indexes 0 to nn - 1. No RDDIG for nn = 0: DESIGN CHOICE
(notes/assumptions/11.md), since R112 and R114 write index 0 first. -/
def digestCmds (ctx : Ctx) (nn : Nat) : List Instr := (List.range nn).map fun i => .rddig ctx (BitVec.ofNat 8 i)

/-- R110: `INIT ctx, nn`, or `INIT ctx, nn, key=kk`. -/
def initCmd (ctx : Ctx) (nn : Byte) : Option Byte → Instr
  | none => .init ctx false 0 nn
  | some kk => .init ctx true kk nn

/-- R112: `HASH ctx, nn, s` with an optional key. A key that is given but has no bytes expands to an INIT with KP = 1 and
KK = 0, which the core refuses (R120): DESIGN CHOICE (notes/assumptions/11.md), since R112 shows a key of one byte or more.
Its digest for nn = 0 is `digestCmds`'s choice. -/
def hashCmds (ctx : Ctx) (nn : Nat) (key : Option (List Byte)) (bytes : List Byte) : List Instr :=
  initCmd ctx (BitVec.ofNat 8 nn) (key.map fun ks => BitVec.ofNat 8 ks.length)
    :: (keyCmds ctx (key.getD []) ++ updateCmds ctx bytes ++ .final ctx :: digestCmds ctx nn)

/-- R112: B2A's default output length. -/
def defaultDigestLength : Nat := 64

/-- The bytes written as numbers that fit a byte. -/
def asBytes (ns : List Nat) : List Byte := ns.map (BitVec.ofNat 8)

/-- The commands of a line other than `.word`. -/
def asmCommands : AsmLine → List Instr
  | .init ctx nn keyLen => [initCmd (BitVec.ofNat 4 ctx) (BitVec.ofNat 8 nn) (keyLen.map (BitVec.ofNat 8))]
  | .keyb ctx byte => [.keyb (BitVec.ofNat 4 ctx) (BitVec.ofNat 8 byte)]
  | .updb ctx byte => [.updb (BitVec.ofNat 4 ctx) (BitVec.ofNat 8 byte)]
  | .final ctx => [.final (BitVec.ofNat 4 ctx)]
  | .rddig ctx idx => [.rddig (BitVec.ofNat 4 ctx) (BitVec.ofNat 8 idx)]
  | .rdstat ctx => [.rdstat (BitVec.ofNat 4 ctx)]
  | .rdcnt ctx k => [.rdcnt (BitVec.ofNat 4 ctx) (BitVec.ofNat 8 k)]
  | .rawWord _ => []
  | .update ctx bytes => updateCmds (BitVec.ofNat 4 ctx) (asBytes bytes)
  | .hash ctx nn keyBytes bytes => hashCmds (BitVec.ofNat 4 ctx) nn (keyBytes.map asBytes) (asBytes bytes)
  | .key ctx bytes => keyCmds (BitVec.ofNat 4 ctx) (asBytes bytes)
  | .digest ctx nn => digestCmds (BitVec.ofNat 4 ctx) nn

/-- R110: the words a line assembles to; `none` is an assembler error. `.word` emits its word as it is. -/
def assemble (line : AsmLine) : Option (List Word) :=
  if line.wellFormed then
    match line with
    | .rawWord w => some [BitVec.ofNat 32 w]
    | other => some ((asmCommands other).map encode)
  else none

/-! ### Reading a line of text -/

/-- Split a text at every character that `sep` accepts. -/
def splitText (sep : Char → Bool) : List Char → List (List Char)
  | [] => [[]]
  | ch :: rest =>
    if sep ch then [] :: splitText sep rest
    else
      match splitText sep rest with
      | [] => [[ch]]
      | w :: ws => (ch :: w) :: ws

/-- The words of a text, blanks dropped: any number of blanks between, before and after them is one (DESIGN CHOICE,
notes/assumptions/11.md). -/
def textWords (cs : List Char) : List (List Char) := (splitText (· == ' ') cs).filter fun w => !w.isEmpty

/-- A digit's value in the given base. -/
def digitValue (base : Nat) (ch : Char) : Option Nat :=
  let n := ch.toNat
  let v :=
    if 48 ≤ n ∧ n ≤ 57 then n - 48
    else if 65 ≤ n ∧ n ≤ 70 then n - 55
    else if 97 ≤ n ∧ n ≤ 102 then n - 87
    else base
  if v < base then some v else none

/-- The number a run of digits writes, most significant first. -/
def digitsValue (base : Nat) : Nat → List Char → Option Nat
  | acc, [] => some acc
  | acc, ch :: rest => (digitValue base ch).bind fun d => digitsValue base (acc * base + d) rest

/-- R110: "Numbers are decimal, or hexadecimal with 0x". -/
def readNumber : List Char → Option Nat
  | [] => none
  | ['0', 'x'] => none
  | '0' :: 'x' :: ds => digitsValue 16 0 ds
  | ds => digitsValue 10 0 ds

/-- All of a list, or nothing. -/
def allSome : List (Option Nat) → Option (List Nat)
  | [] => some []
  | x :: xs => x.bind fun n => (allSome xs).map (n :: ·)

/-- A byte string written as numbers. -/
def readNumbers (ws : List (List Char)) : Option (List Nat) := allSome (ws.map readNumber)

/-- The text after `key=`. -/
def afterKey : List Char → Option (List Char)
  | 'k' :: 'e' :: 'y' :: '=' :: rest => some rest
  | _ => none

/-- Two numbers as the two operands of a line. -/
def twoNumbers (f : Nat → Nat → AsmLine) (x y : List Char) : Option AsmLine :=
  (readNumber x).bind fun a => (readNumber y).map fun b => f a b

/-- The operands of a line, already split at commas and blanks, under its mnemonic (R110 to R114). HASH with `key=` and no
byte after it is no line: DESIGN CHOICE (notes/assumptions/11.md), since R112 gives no text for a key of no bytes. The letter
case, the separators and the lines that are no line are that entry's choices too. -/
def readOperands : List Char → List (List (List Char)) → Option AsmLine
  | ['I', 'N', 'I', 'T'], [[c], [n]] => twoNumbers (fun c n => .init c n none) c n
  | ['I', 'N', 'I', 'T'], [[c], [n], [k]] =>
      ((afterKey k).bind readNumber).bind fun kk => twoNumbers (fun c n => .init c n (some kk)) c n
  | ['K', 'E', 'Y', 'B'], [[c], [x]] => twoNumbers .keyb c x
  | ['U', 'P', 'D', 'B'], [[c], [x]] => twoNumbers .updb c x
  | ['F', 'I', 'N', 'A', 'L'], [[c]] => (readNumber c).map .final
  | ['R', 'D', 'D', 'I', 'G'], [[c], [x]] => twoNumbers .rddig c x
  | ['R', 'D', 'S', 'T', 'A', 'T'], [[c]] => (readNumber c).map .rdstat
  | ['R', 'D', 'C', 'N', 'T'], [[c], [x]] => twoNumbers .rdcnt c x
  | ['.', 'w', 'o', 'r', 'd'], [[w]] => (readNumber w).map .rawWord
  | ['U', 'P', 'D', 'A', 'T', 'E'], [[c], s] =>
      (readNumber c).bind fun c => (readNumbers s).map fun s => .update c s
  | ['K', 'E', 'Y'], [[c], s] => (readNumber c).bind fun c => (readNumbers s).map fun s => .key c s
  | ['D', 'I', 'G', 'E', 'S', 'T'], [[c], [n]] => twoNumbers .digest c n
  | ['H', 'A', 'S', 'H'], [[c], [n], s] =>
      (readNumbers s).bind fun s => twoNumbers (fun c n => .hash c n none s) c n
  | ['H', 'A', 'S', 'H'], [[c], [n], s, k :: ks] =>
      ((afterKey k).bind fun k0 => readNumbers (k0 :: ks)).bind fun keyBytes =>
        (readNumbers s).bind fun s => twoNumbers (fun c n => .hash c n (some keyBytes) s) c n
  | _, _ => none

/-- The mnemonic ends at the first blank. So a line that begins with a blank has an empty mnemonic and is no line, an
assembler error: DESIGN CHOICE (notes/assumptions/11.md), since R110 is silent on it. -/
def readLineFrom : List Char → List Char → Option AsmLine
  | mnemonic, [] => readOperands mnemonic.reverse []
  | mnemonic, ch :: rest =>
    if ch == ' ' then readOperands mnemonic.reverse ((splitText (· == ',') rest).map textWords)
    else readLineFrom (ch :: mnemonic) rest

/-- R110: "One command per line, the mnemonic followed by comma-separated operands". -/
def readLine (cs : List Char) : Option AsmLine := readLineFrom [] cs

/-- R110: a line of text to its words. -/
def assembleText (cs : List Char) : Option (List Word) := (readLine cs).bind assemble

end Sys2Proof.Machine
end

