-- ==== Sys2Proof/Machine/Native.lean ====
section
/-!
DEFINITION. The formulation over native 64-bit lanes (spec/41_compression.md R168, 43_word_pair_arith.md R209), and the
digest of a whole message in one formula (40_context_commands.md R129, R130; 30_encoding.md R112). No command runs these:
they are the other side of the claims that the core computes the same thing.
-/

namespace Sys2Proof.Machine.Native

/-- A 64-bit lane. -/
abbrev Lane64 := BitVec 64

/-- R209: ROTR64 as `((A >> n) | (A << (64 - n))) mod 2^64`. -/
def rotr (x : Lane64) (n : Nat) : Lane64 := x >>> n ||| x <<< (64 - n)

/-- R180: `IV(0..7)`. -/
def iv : Vector Lane64 8 :=
  #v[0x6A09E667F3BCC908#64, 0xBB67AE8584CAA73B#64, 0x3C6EF372FE94F82B#64, 0xA54FF53A5F1D36F1#64,
     0x510E527FADE682D1#64, 0x9B05688C2B3E6C1F#64, 0x1F83D9ABFB41BD6B#64, 0x5BE0CD19137E2179#64]

/-- R182 over native lanes. -/
def mixG (a b c d : Fin 16) (x y : Lane64) (v : Vector Lane64 16) : Vector Lane64 16 :=
  let v := v.set a.val (v[a.val] + v[b.val] + x)
  let v := v.set d.val (rotr (v[d.val] ^^^ v[a.val]) 32)
  let v := v.set c.val (v[c.val] + v[d.val])
  let v := v.set b.val (rotr (v[b.val] ^^^ v[c.val]) 24)
  let v := v.set a.val (v[a.val] + v[b.val] + y)
  let v := v.set d.val (rotr (v[d.val] ^^^ v[a.val]) 16)
  let v := v.set c.val (v[c.val] + v[d.val])
  v.set b.val (rotr (v[b.val] ^^^ v[c.val]) 63)

/-- R183 over native lanes. -/
def mixRound (r : Fin 12) (m v : Vector Lane64 16) : Vector Lane64 16 :=
  let s := sigma[r.val]
  let v := mixG 0 4 8 12 m[s[0].val] m[s[1].val] v
  let v := mixG 1 5 9 13 m[s[2].val] m[s[3].val] v
  let v := mixG 2 6 10 14 m[s[4].val] m[s[5].val] v
  let v := mixG 3 7 11 15 m[s[6].val] m[s[7].val] v
  let v := mixG 0 5 10 15 m[s[8].val] m[s[9].val] v
  let v := mixG 1 6 11 12 m[s[10].val] m[s[11].val] v
  let v := mixG 2 7 8 13 m[s[12].val] m[s[13].val] v
  mixG 3 4 9 14 m[s[14].val] m[s[15].val] v

/-- R184 over native lanes. -/
def allRounds (m v : Vector Lane64 16) : Vector Lane64 16 :=
  ([0, 1, 2, 3, 4, 5, 6, 7, 8, 9, 10, 11] : List (Fin 12)).foldl (fun v r => mixRound r m v) v

/-- R168: R160 over native lanes. -/
def seedWorking (h : Vector Lane64 8) (t : BitVec 128) (last : Bool) : Vector Lane64 16 :=
  #v[h[0], h[1], h[2], h[3], h[4], h[5], h[6], h[7], iv[0], iv[1], iv[2], iv[3],
     iv[4] ^^^ t.extractLsb' 0 64, iv[5] ^^^ t.extractLsb' 64 64,
     if last then iv[6] ^^^ 0xFFFFFFFFFFFFFFFF#64 else iv[6], iv[7]]

/-- R162, R164 over native lanes: `H(i) ^ V(i) ^ V(i + 8)`. -/
def compress (h : Vector Lane64 8) (m : Vector Lane64 16) (t : BitVec 128) (last : Bool) : Vector Lane64 8 :=
  let v := allRounds m (seedWorking h t last)
  Vector.ofFn fun i => h[i.val] ^^^ v[i.val] ^^^ v[i.val + 8]

/-- R22: the lanes `H(0..7)` of a chaining state. -/
def chainLanes (h : Chain) : Vector Lane64 8 := Vector.ofFn fun i => h[2 * i.val + 1] ++ h[2 * i.val]

/-- R7: the lanes of a 32-word array. -/
def wordLanes (w : Vector Half 32) : Vector Lane64 16 := Vector.ofFn fun i => w[2 * i.val + 1] ++ w[2 * i.val]

/-- R62: the message lanes `M(i) = MemRead(8i, 8)`. -/
def blockLanes (b : Buffer) : Vector Lane64 16 := Vector.ofFn fun i => memRead b (8 * i.val) 8 (by omega)

/-- Bytes 128j to 128j + 127 of the data, zeros past its end. -/
def blockAt (data : List Byte) (j : Nat) : Buffer := Vector.ofFn fun i => data.getD (128 * j + i.val) 0

/-- R120: the lanes INIT leaves for digest length nn and key length kk. -/
def initChain (nn kk : Nat) : Vector Lane64 8 :=
  iv.set 0 (iv[0] ^^^ (0x01010000#64 ^^^ BitVec.ofNat 64 kk <<< 8 ^^^ BitVec.ofNat 64 nn))

/-- R130: the chaining lanes after the first j non-final compressions, compression j having t = 128 · j. -/
def chainAfter (h : Vector Lane64 8) (data : List Byte) : Nat → Vector Lane64 8
  | 0 => h
  | j + 1 => compress (chainAfter h data j) (blockLanes (blockAt data j)) (BitVec.ofNat 128 (128 * (j + 1))) false

/-- R130: ⌈L/128⌉ - 1 non-final compressions (none when L = 0). -/
def nonFinal (l : Nat) : Nat := (l - 1) / 128

/-- R130: the chaining lanes after the final compression, with t = L. -/
def finalChain (h : Vector Lane64 8) (data : List Byte) : Vector Lane64 8 :=
  compress (chainAfter h data (nonFinal data.length)) (blockLanes (blockAt data (nonFinal data.length)))
    (BitVec.ofNat 128 data.length) true

/-- R129: the key block, the key and then zeros to 128 bytes; no block without a key. -/
def keyBlock : Option (List Byte) → List Byte
  | none => []
  | some ks => ks ++ List.replicate (128 - ks.length) 0

/-- R63: the first nn bytes of the little-endian serialisation of the lanes. -/
def digestBytes (h : Vector Lane64 8) (nn : Nat) : List Byte :=
  (List.range nn).map fun i => (h.toList.getD (i / 8) 0 >>> (8 * (i % 8))).setWidth 8

/-- R112, R129, R130: the digest of a message under an optional key. -/
def blake2b (nn : Nat) (key : Option (List Byte)) (msg : List Byte) : List Byte :=
  digestBytes (finalChain (initChain nn ((key.getD []).length)) (keyBlock key ++ msg)) nn

end Sys2Proof.Machine.Native
end

