-- ==== Sys2Proof/Safety.lean ====
section
/-!
DEFINITION. What counts as a safe run: the invariants of a slot at every command boundary (spec/40_context_commands.md R131,
10_state.md R24 to R27, R30), and the relations between states that claims about what a host can observe are made of
(10_state.md R28, R31, 60_exceptions.md R229).
-/

namespace Sys2Proof.Machine

/-- R27, R131: the invariant of a slot that holds a context. In KEYING the bytes of the buffer not yet written are zero
(R120, R121); in DONE the buffer counts as full (R123). -/
abbrev Slot.LiveInv (k : Slot) : Prop :=
  k.c.toNat ≤ 128 ∧ 1 ≤ k.nn.toNat ∧ k.nn.toNat ≤ 64 ∧
  (if k.kp then 1 ≤ k.kk.toNat ∧ k.kk.toNat ≤ 64 else k.kk = 0) ∧
  (k.st = .keying → k.kp = true ∧ k.c.toNat < k.kk.toNat ∧ k.t = 0 ∧
    ∀ j : Fin 128, k.c.toNat ≤ j.val → k.b[j.val] = 0) ∧
  (k.st = .absorb → k.t.toNat % 128 = 0) ∧
  (k.st = .done → k.c = 128)

/-- R131: the invariant of a slot; an IDLE slot's fields hold no value (R28), so nothing is asked of them. -/
abbrev Slot.Inv (k : Slot) : Prop := k.st ≠ .idle → k.LiveInv

/-- R100: a response with an error carries no data. -/
abbrev Response.Inv (r : Response) : Prop := r.err ≠ .ok → r.data = 0

/-- The invariant of the machine: 1 to 16 slots (R5), each in a state R131 allows, no compression in progress (R30), and
responses that carry no data with an error (R100). -/
abbrev State.Inv (s : State) : Prop :=
  (Config.minSlots ≤ s.slots.length ∧ s.slots.length ≤ Config.maxSlots) ∧
  (∀ k ∈ s.slots, k.Inv) ∧ s.engine.seq = none ∧ (∀ r ∈ s.rsp, r.Inv) ∧ (∀ r ∈ s.delivered, r.Inv)

/-- R8, R104: the next step stops at no fault and at no refusal. -/
def State.Safe (s : State) : Prop := ∃ s', step s = .next s'

/-- R28: two slots a host cannot tell apart: equal, or both IDLE whatever their other fields. -/
def Slot.SameVisible (k k' : Slot) : Prop := k = k' ∨ (k.st = .idle ∧ k'.st = .idle)

/-- R28, R31: two machines a host cannot tell apart: slots alike, the same port, and any internal `v`, `m` and sequencer. -/
def State.SameVisible (s s' : State) : Prop :=
  List.Forall₂ Slot.SameVisible s.slots s'.slots ∧ s.rsp = s'.rsp ∧ s.input = s'.input ∧ s.delivered = s'.delivered

/-- R229: two slots that agree on all but the buffer, and on the chaining state once the digest is out. -/
def Slot.SameButSecret (k k' : Slot) : Prop :=
  k.st = k'.st ∧ k.t = k'.t ∧ k.c = k'.c ∧ k.nn = k'.nn ∧ k.kp = k'.kp ∧ k.kk = k'.kk ∧ (k.st = .done → k.h = k'.h)

/-- R60, 20_memory.md R65: the byte of the buffer at an address, if the address exists. -/
def Slot.byteAt (k : Slot) (addr : Nat) : Option Byte := k.b[addr]?

end Sys2Proof.Machine
end

