-- ==== Sys2Proof/Certificates/Slice0/Obligations.lean ====
section
/-!
DEFINITION. The statements about the core, in the order of OBLIGATIONS.json. Each docstring names the rule of spec/ it
formalises. Statements about slots hold for every slot array, and so for every NCTX (spec/00_scope.md R5).
-/

open Sys2Proof Sys2Proof.Machine

namespace Sys2Proof.Claims

/-- The state s with response (e, d) offered and nothing else changed. -/
def answered (s : State) (e : ErrorCode) (d : BitVec 32) : State := { s with rsp := some ⟨e, d⟩ }

/-- The state s with slot ctx holding k, the internal storage e, and response OK with DATA = 0. -/
def wrote (s : State) (ctx : Ctx) (k : Slot) (e : Engine) : State :=
  { s with slots := s.slots.set ctx.toNat k, engine := e, rsp := some ⟨.ok, 0⟩ }

/-- R99, R223: an unassigned OP, or a reserved bit set in an assigned format. -/
def illegal (w : Word) : Prop :=
  fieldOp w = 0 ∨ 8 ≤ (fieldOp w).toNat ∨
  (fieldOp w = 1 ∧ w.extractLsb' 17 7 ≠ 0) ∨
  ((fieldOp w = 2 ∨ fieldOp w = 3 ∨ fieldOp w = 5 ∨ fieldOp w = 7) ∧ w.extractLsb' 8 16 ≠ 0) ∨
  ((fieldOp w = 4 ∨ fieldOp w = 6) ∧ w.extractLsb' 0 24 ≠ 0)

/-- R222: the slot states in which a command raises InvalidState. -/
def stateForbids : Instr → SlotState → Bool
  | .init _ _ _ _, _ => false
  | .keyb _ _, st => decide (st ≠ .keying)
  | .updb _ _, st => decide (st ≠ .absorb)
  | .final _, st => decide (st ≠ .absorb)
  | .rddig _ _, st => decide (st ≠ .done)
  | .rdstat _, _ => false
  | .rdcnt _ _, st => decide (st = .idle)

/-- R221 b to f: the operands, other than CTX, that raise InvalidParameter. -/
def operandsBad : Instr → Slot → Bool
  | .init _ kp kk nn, _ =>
      decide (nn.toNat < 1 ∨ 64 < nn.toNat ∨ (kp = true ∧ (kk.toNat < 1 ∨ 64 < kk.toNat)) ∨ (kp = false ∧ kk.toNat ≠ 0))
  | .rddig _ idx, k => decide (k.nn.toNat ≤ idx.toNat)
  | .rdcnt _ idx, _ => decide (3 < idx.toNat)
  | .keyb _ _, _ => false
  | .updb _ _, _ => false
  | .final _, _ => false
  | .rdstat _, _ => false

/-- R224: the counter would pass 2^128 - 1. -/
def counterBad : Instr → Slot → Bool
  | .updb _ _, k => decide (k.c.toNat = 128 ∧ 2 ^ 128 - 1 < k.t.toNat + 128)
  | .final _, k => decide (2 ^ 128 - 1 < k.t.toNat + k.c.toNat)
  | .init _ _ _ _, _ => false
  | .keyb _ _, _ => false
  | .rddig _ _, _ => false
  | .rdstat _, _ => false
  | .rdcnt _ _, _ => false

/-- R225: the first error that applies to a command word, in the order of the rule, on the state before the command. -/
def firstError (w : Word) (s : State) : ErrorCode :=
  match decode w with
  | .error _ => .illegalCommand
  | .ok i =>
    match s.slots[i.ctx.toNat]? with
    | none => .invalidParameter
    | some k =>
      if stateForbids i k.st then .invalidState
      else if operandsBad i k then .invalidParameter
      else if counterBad i k then .counterRange
      else .ok

/-- R127: the slot states a command that succeeds may leave. -/
def mayBecome : Instr → SlotState → SlotState → Bool
  | .init _ _ _ _, _, st' => decide (st' = .keying ∨ st' = .absorb)
  | .keyb _ _, st, st' => decide (st = .keying ∧ (st' = .keying ∨ st' = .absorb))
  | .updb _ _, st, st' => decide (st = .absorb ∧ st' = .absorb)
  | .final _, st, st' => decide (st = .absorb ∧ st' = .done)
  | .rddig _ _, st, st' => decide (st = .done ∧ st' = .done)
  | .rdstat _, st, st' => decide (st' = st)
  | .rdcnt _ _, st, st' => decide (st ≠ .idle ∧ st' = st)

/-- R121, R122: the buffer address the byte of KEYB or UPDB goes to; UPDB empties a full buffer first. -/
def stagingAddress (k : Slot) : Nat := if k.c = 128 then 0 else k.c.toNat

/-- The commands that stage a byte. -/
def stagedByte : Instr → Option Byte
  | .keyb _ d => some d
  | .updb _ d => some d
  | .init _ _ _ _ => none
  | .final _ => none
  | .rddig _ _ => none
  | .rdstat _ => none
  | .rdcnt _ _ => none

/-- The commands that only read. -/
def isRead : Instr → Bool
  | .rddig _ _ => true
  | .rdstat _ => true
  | .rdcnt _ _ => true
  | .init _ _ _ _ => false
  | .keyb _ _ => false
  | .updb _ _ => false
  | .final _ => false

/-- INIT. -/
def isInit : Instr → Bool
  | .init _ _ _ _ => true
  | .keyb _ _ => false
  | .updb _ _ => false
  | .final _ => false
  | .rddig _ _ => false
  | .rdstat _ => false
  | .rdcnt _ _ => false

/-- R166: the commands that compress, given the slot: UPDB on a full buffer, and FINAL. -/
def compresses : Instr → Slot → Bool
  | .updb _ _, k => decide (k.c = 128)
  | .final _, _ => true
  | .init _ _ _ _, _ => false
  | .keyb _ _, _ => false
  | .rddig _ _, _ => false
  | .rdstat _, _ => false
  | .rdcnt _ _, _ => false

/-- R8: the "specification error" a command would need in a slot that breaks the ranges of R25 to R27, if any. -/
def specificationError : Instr → Slot → Option Fault
  | .keyb _ _, k => if k.st = .keying ∧ 128 ≤ k.c.toNat then some .bufferAddress else none
  | .updb _ _, k => if k.st = .absorb ∧ 128 < k.c.toNat then some .bufferAddress else none
  | .rddig _ idx, k => if k.st = .done ∧ 64 ≤ idx.toNat ∧ idx.toNat < k.nn.toNat then some .digestIndex else none
  | .init _ _ _ _, _ => none
  | .final _, _ => none
  | .rdstat _, _ => none
  | .rdcnt _ _, _ => none

/-- R110: the line is an assembler error where the bounds fail, and otherwise its words decode to these commands. -/
def assembles (line : AsmLine) (bounds : Prop) (cmds : List Instr) : Prop :=
  (¬ bounds → assemble line = none) ∧ (bounds → ∃ ws, assemble line = some ws ∧ ws.map decode = cmds.map .ok)

/-- R129: the commands that open a context under an optional key. -/
def openCmds (ctx : Ctx) (nn : Nat) (key : Option (List Byte)) : List Instr :=
  initCmd ctx (BitVec.ofNat 8 nn) (key.map fun ks => BitVec.ofNat 8 ks.length) :: keyCmds ctx (key.getD [])

end Sys2Proof.Claims

open Sys2Proof.Claims

/-! ### Command words -/

/-- 95_test_vectors.md P1, P2, P5 and 40_context_commands.md's examples: words written out there, one for each command,
decode to the commands they stand for, and two illegal words are rejected by name. -/
def Obligations.SpecWordsDecode : Prop :=
  decode 0x11010320#32 = .ok (.init 1 true 3 32) ∧
  decode 0x2100006B#32 = .ok (.keyb 1 0x6B) ∧
  decode 0x30000061#32 = .ok (.updb 0 0x61) ∧
  decode 0x41000000#32 = .ok (.final 1) ∧
  decode 0x500000C8#32 = .ok (.rddig 0 200) ∧
  decode 0x60000000#32 = .ok (.rdstat 0) ∧
  decode 0x71000001#32 = .ok (.rdcnt 1 1) ∧
  decode 0x80000000#32 = .error .unassignedOpcode ∧
  decode 0x10020040#32 = .error .reservedBitSet

/-- R92 to R98: decoding the encoding of any command gives that command back, with every operand. -/
def Obligations.DecodeOfEncode : Prop := ∀ i : Instr, decode (encode i) = .ok i

/-- R97, R98: a word that decodes to a command is the encoding of that command: each command has one word. -/
def Obligations.EncodeOfDecode : Prop := ∀ (w : Word) (i : Instr), decode w = .ok i → encode i = w

/-- R96, R98: a word is a command exactly when its masked bits match the row, its operands are the fields of the format,
and a word that matches no row raises IllegalCommand. -/
def Obligations.WordIsCommandIffRowMatches : Prop :=
  (∀ w : Word,
    (w &&& 0xF0FE0000#32 = 0x10000000#32 ↔
      decode w = .ok (.init (w.extractLsb' 24 4) (w.getLsbD 16) (w.extractLsb' 8 8) (w.extractLsb' 0 8))) ∧
    (w &&& 0xF0FFFF00#32 = 0x20000000#32 ↔ decode w = .ok (.keyb (w.extractLsb' 24 4) (w.extractLsb' 0 8))) ∧
    (w &&& 0xF0FFFF00#32 = 0x30000000#32 ↔ decode w = .ok (.updb (w.extractLsb' 24 4) (w.extractLsb' 0 8))) ∧
    (w &&& 0xF0FFFFFF#32 = 0x40000000#32 ↔ decode w = .ok (.final (w.extractLsb' 24 4))) ∧
    (w &&& 0xF0FFFF00#32 = 0x50000000#32 ↔ decode w = .ok (.rddig (w.extractLsb' 24 4) (w.extractLsb' 0 8))) ∧
    (w &&& 0xF0FFFFFF#32 = 0x60000000#32 ↔ decode w = .ok (.rdstat (w.extractLsb' 24 4))) ∧
    (w &&& 0xF0FFFF00#32 = 0x70000000#32 ↔ decode w = .ok (.rdcnt (w.extractLsb' 24 4) (w.extractLsb' 0 8)))) ∧
  (∀ (w : Word) (s : State), (∀ r ∈ opRows, w &&& r.mask ≠ r.pattern) →
    acceptWord w s = .next (answered s .illegalCommand 0))

/-- R223: a word with an unassigned OP, or with a reserved bit of its format set, raises IllegalCommand and changes nothing;
every other word is a command. -/
def Obligations.IllegalWordsRejected : Prop :=
  ∀ (w : Word) (s : State),
    (illegal w → acceptWord w s = .next (answered s .illegalCommand 0)) ∧
    (¬ illegal w → ∃ i, decode w = .ok i ∧ acceptWord w s = exec i s)

/-- R110 to R114, line by line: the bounds of the operands, outside which a line is an error, and the commands its words
decode to, the pseudo-instructions expanded; `.word` emits its word. The key bytes of HASH number at most 255, those of KEY
any number. The model's choices (notes/assumptions/11.md), no rule's: that bound on HASH's key, HASH with a key of no bytes,
KEY with no byte, and DIGEST and HASH with nn = 0. -/
def Obligations.AssembledLinesDecode : Prop :=
  (∀ c n, assembles (.init c n none) (c ≤ 15 ∧ n ≤ 255) [.init (BitVec.ofNat 4 c) false 0 (BitVec.ofNat 8 n)]) ∧
  (∀ c n k, assembles (.init c n (some k)) (c ≤ 15 ∧ n ≤ 255 ∧ k ≤ 255)
    [.init (BitVec.ofNat 4 c) true (BitVec.ofNat 8 k) (BitVec.ofNat 8 n)]) ∧
  (∀ c x, assembles (.keyb c x) (c ≤ 15 ∧ x ≤ 255) [.keyb (BitVec.ofNat 4 c) (BitVec.ofNat 8 x)]) ∧
  (∀ c x, assembles (.updb c x) (c ≤ 15 ∧ x ≤ 255) [.updb (BitVec.ofNat 4 c) (BitVec.ofNat 8 x)]) ∧
  (∀ c, assembles (.final c) (c ≤ 15) [.final (BitVec.ofNat 4 c)]) ∧
  (∀ c x, assembles (.rddig c x) (c ≤ 15 ∧ x ≤ 255) [.rddig (BitVec.ofNat 4 c) (BitVec.ofNat 8 x)]) ∧
  (∀ c, assembles (.rdstat c) (c ≤ 15) [.rdstat (BitVec.ofNat 4 c)]) ∧
  (∀ c x, assembles (.rdcnt c x) (c ≤ 15 ∧ x ≤ 255) [.rdcnt (BitVec.ofNat 4 c) (BitVec.ofNat 8 x)]) ∧
  (∀ c xs, assembles (.update c xs) (c ≤ 15 ∧ ∀ x ∈ xs, x ≤ 255)
    (xs.map fun x => .updb (BitVec.ofNat 4 c) (BitVec.ofNat 8 x))) ∧
  (∀ c ks, assembles (.key c ks) (c ≤ 15 ∧ ∀ x ∈ ks, x ≤ 255)
    (ks.map fun x => .keyb (BitVec.ofNat 4 c) (BitVec.ofNat 8 x))) ∧
  (∀ c n, assembles (.digest c n) (c ≤ 15 ∧ n ≤ 255)
    ((List.range n).map fun i => .rddig (BitVec.ofNat 4 c) (BitVec.ofNat 8 i))) ∧
  (∀ c n xs, assembles (.hash c n none xs) (c ≤ 15 ∧ n ≤ 255 ∧ ∀ x ∈ xs, x ≤ 255)
    ([.init (BitVec.ofNat 4 c) false 0 (BitVec.ofNat 8 n)]
      ++ (xs.map fun x => .updb (BitVec.ofNat 4 c) (BitVec.ofNat 8 x))
      ++ [.final (BitVec.ofNat 4 c)]
      ++ (List.range n).map fun i => .rddig (BitVec.ofNat 4 c) (BitVec.ofNat 8 i))) ∧
  (∀ c n ks xs, assembles (.hash c n (some ks) xs)
    (c ≤ 15 ∧ n ≤ 255 ∧ (ks.length ≤ 255 ∧ ∀ x ∈ ks, x ≤ 255) ∧ ∀ x ∈ xs, x ≤ 255)
    ([.init (BitVec.ofNat 4 c) true (BitVec.ofNat 8 ks.length) (BitVec.ofNat 8 n)]
      ++ (ks.map fun x => .keyb (BitVec.ofNat 4 c) (BitVec.ofNat 8 x))
      ++ (xs.map fun x => .updb (BitVec.ofNat 4 c) (BitVec.ofNat 8 x))
      ++ [.final (BitVec.ofNat 4 c)]
      ++ (List.range n).map fun i => .rddig (BitVec.ofNat 4 c) (BitVec.ofNat 8 i))) ∧
  ∀ w, (¬ w < 2 ^ 32 → assemble (.rawWord w) = none) ∧ (w < 2 ^ 32 → assemble (.rawWord w) = some [BitVec.ofNat 32 w])

/-! ### Arithmetic -/

/-- R209: over 64-bit values the half-level operations are addition mod 2^64, XOR, complement and rotation. -/
def Obligations.HalvesAgreeWithNative64 : Prop :=
  ∀ a b : Lane,
    laneValue (add64 a b) = laneValue a + laneValue b ∧
    laneValue (xor64 a b) = laneValue a ^^^ laneValue b ∧
    laneValue (not64 a) = ~~~ (laneValue a) ∧
    ∀ n, 1 ≤ n → n ≤ 63 → laneValue (rotr64 a n) = laneValue a >>> n ||| laneValue a <<< (64 - n)

/-- R201: three-operand addition does not depend on bracketing or order, and its value is `(a + b + x) mod 2^64`. -/
def Obligations.ThreeOperandAddition : Prop :=
  (∀ a b x : Lane,
    laneValue (add64 (add64 a b) x) = laneValue a + laneValue b + laneValue x ∧
    add64 (add64 a b) x = add64 a (add64 b x) ∧ add64 a b = add64 b a) ∧
  laneValue (add64 (add64 (laneOfValue 0x7FFFFFFFFFFFFFFF) (laneOfValue 0x7FFFFFFFFFFFFFFF))
    (laneOfValue 0xFFFFFFFFFFFFFFFF)) = 0xFFFFFFFFFFFFFFFD

/-- R205 to R208: the half-level forms of the four rotations G uses, with the examples and corners of the rules. -/
def Obligations.RotationForms : Prop :=
  (∀ lo hi : Half,
    rotr64 ⟨lo, hi⟩ 32 = ⟨hi, lo⟩ ∧
    rotr64 ⟨lo, hi⟩ 24 = ⟨lo >>> 24 ||| hi <<< 8, hi >>> 24 ||| lo <<< 8⟩ ∧
    rotr64 ⟨lo, hi⟩ 16 = ⟨lo >>> 16 ||| hi <<< 16, hi >>> 16 ||| lo <<< 16⟩ ∧
    rotr64 ⟨lo, hi⟩ 63 = ⟨lo <<< 1 ||| hi >>> 31, hi <<< 1 ||| lo >>> 31⟩) ∧
  laneValue (rotr64 (laneOfValue 0x0123456789ABCDEF) 32) = 0x89ABCDEF01234567 ∧
  laneValue (rotr64 (laneOfValue 0x0123456789ABCDEF) 24) = 0xABCDEF0123456789 ∧
  laneValue (rotr64 (laneOfValue 0x0000000000000001) 24) = 0x0000010000000000 ∧
  laneValue (rotr64 (laneOfValue 0x0123456789ABCDEF) 16) = 0xCDEF0123456789AB ∧
  laneValue (rotr64 (laneOfValue 0x8000000000000000) 16) = 0x0000800000000000 ∧
  laneValue (rotr64 (laneOfValue 0x0123456789ABCDEF) 63) = 0x02468ACF13579BDE ∧
  laneValue (rotr64 (laneOfValue 0x8000000000000000) 63) = 0x0000000000000001 ∧
  laneValue (rotr64 (laneOfValue 0xFFFFFFFF00000000) 63) = 0xFFFFFFFE00000001

/-! ### Mixing core -/

/-- R182: on four distinct lanes G computes the eight steps in order, each on the values the earlier ones wrote, and it
writes those four lanes only. -/
def Obligations.MixGComputesEightSteps : Prop :=
  ∀ (a b c d : Fin 16) (x y : Lane) (v : Working), [a, b, c, d].Nodup →
    let a1 := laneValue (laneAt v a) + laneValue (laneAt v b) + laneValue x
    let d1 := (laneValue (laneAt v d) ^^^ a1).rotateRight 32
    let c1 := laneValue (laneAt v c) + d1
    let b1 := (laneValue (laneAt v b) ^^^ c1).rotateRight 24
    let a2 := a1 + b1 + laneValue y
    let d2 := (d1 ^^^ a2).rotateRight 16
    let c2 := c1 + d2
    let b2 := (b1 ^^^ c2).rotateRight 63
    let v' := mixG a b c d x y v
    laneAt v' a = laneOfValue a2 ∧ laneAt v' b = laneOfValue b2 ∧ laneAt v' c = laneOfValue c2 ∧
    laneAt v' d = laneOfValue d2 ∧ ∀ j, j ∉ [a, b, c, d] → laneAt v' j = laneAt v j

/-- R186: the four column calls may run in any order, and so may the four diagonal calls; a diagonal call moved before a
column call computes a different function. -/
def Obligations.CallsOfAHalfRoundCommute : Prop :=
  (∀ (r : Fin 12) (m : Block) (v : Working) (p : List (Fin 8)), p.Perm [0, 1, 2, 3] →
    p.foldl (fun v i => gCall r i m v) v = [0, 1, 2, 3].foldl (fun v i => gCall r i m v) v) ∧
  (∀ (r : Fin 12) (m : Block) (v : Working) (p : List (Fin 8)), p.Perm [4, 5, 6, 7] →
    p.foldl (fun v i => gCall r i m v) v = [4, 5, 6, 7].foldl (fun v i => gCall r i m v) v) ∧
  ∃ (r : Fin 12) (m : Block) (v : Working),
    ([0, 1, 2, 4, 3, 5, 6, 7] : List (Fin 8)).foldl (fun v i => gCall r i m v) v ≠ mixRound r m v

/-- R187: for a fixed message block the 96-call schedule is a bijection on the working vector. -/
def Obligations.ScheduleIsABijection : Prop := ∀ m : Block, Function.Bijective (allRounds m)

/-- R184: the sequencer walks the 96 G calls in order, call n being call n mod 8 of round n div 8, and after the last one
the working vector is that of ROUND(0) to ROUND(11) and no compression is in progress. Rows 10 and 11 of SIGMA are rows 0
and 1. -/
def Obligations.SequencerRunsTwelveRounds : Prop :=
  (∀ (h : Chain) (b : Buffer) (t : BitVec 128) (last : Bool),
    (∀ (r : Fin 12) (i : Fin 8), ((Engine.start h b t last).ticks (8 * r.val + i.val)).seq = some (r, i)) ∧
    (Engine.start h b t last).ticks 96 =
      { v := allRounds (loadBlock b) (seedWorking h t last), m := loadBlock b, seq := none }) ∧
  sigma[10] = sigma[0] ∧ sigma[11] = sigma[1]

/-! ### Compression -/

/-- R160: every word of the seeded working vector. -/
def Obligations.SeedPlacesCounterAndFlag : Prop :=
  ∀ (h : Chain) (t : BitVec 128) (last : Bool),
    let v := seedWorking h t last
    (∀ i : Fin 16, v[i.val] = h[i.val]) ∧
    (∀ i : Fin 8, v[16 + i.val] = iv32[i.val]) ∧
    v[24] = iv32[8] ^^^ t.extractLsb' 0 32 ∧ v[25] = iv32[9] ^^^ t.extractLsb' 32 32 ∧
    v[26] = iv32[10] ^^^ t.extractLsb' 64 32 ∧ v[27] = iv32[11] ^^^ t.extractLsb' 96 32 ∧
    v[28] = (if last then ~~~ iv32[12] else iv32[12]) ∧ v[29] = (if last then ~~~ iv32[13] else iv32[13]) ∧
    v[30] = iv32[14] ∧ v[31] = iv32[15] ∧
    (t.toNat < 2 ^ 64 → v[26] = iv32[10] ∧ v[27] = iv32[11])

/-- R167: for every counter below 2^53, word 24 takes `t[31:0]`, word 25 takes `floor(t / 2^32)`, and words 26 and 27 are
unchanged. -/
def Obligations.CounterPlacementBelow2Pow53 : Prop :=
  ∀ (h : Chain) (t : BitVec 128) (last : Bool), t.toNat < 2 ^ 53 →
    (seedWorking h t last)[24] = iv32[8] ^^^ t.extractLsb' 0 32 ∧
    (seedWorking h t last)[25] = iv32[9] ^^^ BitVec.ofNat 32 (t.toNat / 2 ^ 32) ∧
    (seedWorking h t last)[26] = iv32[10] ∧ (seedWorking h t last)[27] = iv32[11]

/-- R168: compression over halves and over native 64-bit lanes gives the same chaining state, bit for bit. -/
def Obligations.CompressionAgreesWithNative64 : Prop :=
  ∀ (h : Chain) (b : Buffer) (t : BitVec 128) (last : Bool),
    Native.chainLanes (compressChain h b t last) =
      Native.compress (Native.chainLanes h) (Native.blockLanes b) t last

/-- R62: the message words are the little-endian words of the buffer, a message lane is `MemRead(8i, 8)` and the pair of
its words, and byte 8i + k of the buffer is bits [8k+7 : 8k] of lane i. -/
def Obligations.MessageWordsLittleEndian : Prop :=
  ∀ b : Buffer,
    (∀ j : Fin 32, (loadBlock b)[j.val] =
      b[4 * j.val].setWidth 32 ||| b[4 * j.val + 1].setWidth 32 <<< 8 ||| b[4 * j.val + 2].setWidth 32 <<< 16
        ||| b[4 * j.val + 3].setWidth 32 <<< 24) ∧
    (∀ i : Fin 16,
      laneValue (laneAt (loadBlock b) i) = memRead b (8 * i.val) 8 (by omega) ∧
      memRead b (8 * i.val) 8 (by omega) = (loadBlock b)[2 * i.val + 1] ++ (loadBlock b)[2 * i.val]) ∧
    (∀ (i : Fin 16) (k : Fin 8),
      b[8 * i.val + k.val] = (laneValue (laneAt (loadBlock b) i)).extractLsb' (8 * k.val) 8)

/-- R63: digest byte i is byte i mod 4 of word i div 4, and byte i mod 8 of lane H(i div 8). -/
def Obligations.DigestIsLittleEndianChain : Prop :=
  ∀ (h : Chain) (i : Fin 64),
    digestByte h i.val i.isLt = (h[i.val / 4] >>> (8 * (i.val % 4))).extractLsb' 0 8 ∧
    digestByte h i.val i.isLt = ((Native.chainLanes h)[i.val / 8]).extractLsb' (8 * (i.val % 8)) 8

/-! ### The seven commands -/

/-- R120: INIT, on every operand and in every state of the slot. -/
def Obligations.InitCreatesContext : Prop :=
  ∀ (s : State) (ctx : Ctx) (kp : Bool) (kk nn : Byte),
    (s.slots.length ≤ ctx.toNat → exec (.init ctx kp kk nn) s = .next (answered s .invalidParameter 0)) ∧
    (ctx.toNat < s.slots.length → (nn.toNat < 1 ∨ 64 < nn.toNat) →
      exec (.init ctx kp kk nn) s = .next (answered s .invalidParameter 0)) ∧
    (ctx.toNat < s.slots.length → kp = true → (kk.toNat < 1 ∨ 64 < kk.toNat) →
      exec (.init ctx kp kk nn) s = .next (answered s .invalidParameter 0)) ∧
    (ctx.toNat < s.slots.length → kp = false → kk.toNat ≠ 0 →
      exec (.init ctx kp kk nn) s = .next (answered s .invalidParameter 0)) ∧
    (ctx.toNat < s.slots.length → 1 ≤ nn.toNat → nn.toNat ≤ 64 →
      (kp = true → 1 ≤ kk.toNat ∧ kk.toNat ≤ 64) → (kp = false → kk.toNat = 0) →
      exec (.init ctx kp kk nn) s = .next (wrote s ctx
        { st := if kp then .keying else .absorb
          h := iv32.set 0 (iv32[0] ^^^ (0x01010000#32 ^^^ BitVec.ofNat 32 (kk.toNat * 256) ^^^ BitVec.ofNat 32 nn.toNat))
          b := Vector.replicate 128 0
          t := 0
          c := 0
          nn := BitVec.ofNat 7 nn.toNat
          kp := kp
          kk := BitVec.ofNat 7 kk.toNat } s.engine)) ∧
    (∀ w, fieldOp w = 1 → w.extractLsb' 17 7 ≠ 0 → acceptWord w s = .next (answered s .illegalCommand 0))

/-- R121: KEYB. The premise c < 128 is the invariant of KEYING (R131). -/
def Obligations.KeybAbsorbsKeyByte : Prop :=
  ∀ (s : State) (ctx : Ctx) (data : Byte),
    (s.slots.length ≤ ctx.toNat → exec (.keyb ctx data) s = .next (answered s .invalidParameter 0)) ∧
    (∀ k, s.slots[ctx.toNat]? = some k →
      (k.st ≠ .keying → exec (.keyb ctx data) s = .next (answered s .invalidState 0)) ∧
      (k.st = .keying → k.c.toNat < 128 → k.c.toNat + 1 ≠ k.kk.toNat →
        exec (.keyb ctx data) s =
          .next (wrote s ctx { k with b := k.b.setIfInBounds k.c.toNat data, c := k.c + 1 } s.engine)) ∧
      (k.st = .keying → k.c.toNat < 128 → k.c.toNat + 1 = k.kk.toNat →
        exec (.keyb ctx data) s =
          .next (wrote s ctx { k with b := k.b.setIfInBounds k.c.toNat data, c := 128, st := .absorb } s.engine))) ∧
    (∀ w, fieldOp w = 2 → w.extractLsb' 8 16 ≠ 0 → acceptWord w s = .next (answered s .illegalCommand 0))

/-- R122: UPDB, the look-ahead rule. The premise c ≤ 128 is the invariant of R25. What the compression leaves in the internal
storage is not said, but that no compression is left in progress (R30). -/
def Obligations.UpdbAbsorbsMessageByte : Prop :=
  ∀ (s : State) (ctx : Ctx) (data : Byte),
    (s.slots.length ≤ ctx.toNat → exec (.updb ctx data) s = .next (answered s .invalidParameter 0)) ∧
    (∀ k, s.slots[ctx.toNat]? = some k →
      (k.st ≠ .absorb → exec (.updb ctx data) s = .next (answered s .invalidState 0)) ∧
      (k.st = .absorb → k.c.toNat < 128 →
        exec (.updb ctx data) s =
          .next (wrote s ctx { k with b := k.b.setIfInBounds k.c.toNat data, c := k.c + 1 } s.engine)) ∧
      (k.st = .absorb → k.c.toNat = 128 → 2 ^ 128 - 1 < k.t.toNat + 128 →
        exec (.updb ctx data) s = .next (answered s .counterRange 0)) ∧
      (k.st = .absorb → k.c.toNat = 128 → k.t.toNat + 128 ≤ 2 ^ 128 - 1 →
        ∃ e : Engine, e.seq = none ∧ exec (.updb ctx data) s =
          .next (wrote s ctx
            { k with
              h := compressChain k.h k.b (BitVec.ofNat 128 (k.t.toNat + 128)) false
              t := BitVec.ofNat 128 (k.t.toNat + 128)
              b := k.b.setIfInBounds 0 data
              c := 1 } e))) ∧
    (∀ w, fieldOp w = 3 → w.extractLsb' 8 16 ≠ 0 → acceptWord w s = .next (answered s .illegalCommand 0))

/-- R123: FINAL compresses exactly once, over the zero-padded buffer, with the true total length. -/
def Obligations.FinalLatchesDigest : Prop :=
  ∀ (s : State) (ctx : Ctx),
    (s.slots.length ≤ ctx.toNat → exec (.final ctx) s = .next (answered s .invalidParameter 0)) ∧
    (∀ k, s.slots[ctx.toNat]? = some k →
      (k.st ≠ .absorb → exec (.final ctx) s = .next (answered s .invalidState 0)) ∧
      (k.st = .absorb → 2 ^ 128 - 1 < k.t.toNat + k.c.toNat →
        exec (.final ctx) s = .next (answered s .counterRange 0)) ∧
      (k.st = .absorb → k.t.toNat + k.c.toNat ≤ 2 ^ 128 - 1 →
        ∃ (e : Engine) (b : Buffer), e.seq = none ∧
          (∀ j : Fin 128, b[j.val] = if j.val < k.c.toNat then k.b[j.val] else 0) ∧
          exec (.final ctx) s =
            .next (wrote s ctx
              { k with
                st := .done
                h := compressChain k.h b (BitVec.ofNat 128 (k.t.toNat + k.c.toNat)) true
                t := BitVec.ofNat 128 (k.t.toNat + k.c.toNat)
                b := b
                c := 128 } e))) ∧
    (∀ w, fieldOp w = 4 → w.extractLsb' 0 24 ≠ 0 → acceptWord w s = .next (answered s .illegalCommand 0))

/-- R124: RDDIG. The premise nn ≤ 64 is the invariant of R26. -/
def Obligations.RddigReadsDigestByte : Prop :=
  ∀ (s : State) (ctx : Ctx) (idx : Byte),
    (s.slots.length ≤ ctx.toNat → exec (.rddig ctx idx) s = .next (answered s .invalidParameter 0)) ∧
    (∀ k, s.slots[ctx.toNat]? = some k →
      (k.st ≠ .done → exec (.rddig ctx idx) s = .next (answered s .invalidState 0)) ∧
      (k.st = .done → k.nn.toNat ≤ idx.toNat → exec (.rddig ctx idx) s = .next (answered s .invalidParameter 0)) ∧
      (k.st = .done → k.nn.toNat ≤ 64 → idx.toNat < k.nn.toNat →
        ∃ word : Half, k.h[idx.toNat / 4]? = some word ∧
          exec (.rddig ctx idx) s =
            .next (answered s .ok (((word >>> (8 * (idx.toNat % 4))).extractLsb' 0 8).setWidth 32)))) ∧
    (∀ w, fieldOp w = 5 → w.extractLsb' 8 16 ≠ 0 → acceptWord w s = .next (answered s .illegalCommand 0))

/-- R125: RDSTAT, in every state of the slot. -/
def Obligations.RdstatReadsStatus : Prop :=
  ∀ (s : State) (ctx : Ctx),
    (s.slots.length ≤ ctx.toNat → exec (.rdstat ctx) s = .next (answered s .invalidParameter 0)) ∧
    (∀ k, s.slots[ctx.toNat]? = some k →
      (k.st = .idle → exec (.rdstat ctx) s = .next (answered s .ok 0)) ∧
      (k.st ≠ .idle → exec (.rdstat ctx) s =
        .next (answered s .ok (BitVec.ofNat 32
          (k.kk.toNat * 2 ^ 24 + k.kp.toNat * 2 ^ 23 + k.nn.toNat * 2 ^ 16 + k.c.toNat * 2 ^ 8 + k.st.code.toNat))))) ∧
    (∀ w, fieldOp w = 6 → w.extractLsb' 0 24 ≠ 0 → acceptWord w s = .next (answered s .illegalCommand 0))

/-- R126: RDCNT. -/
def Obligations.RdcntReadsCounterSlice : Prop :=
  ∀ (s : State) (ctx : Ctx) (idx : Byte),
    (s.slots.length ≤ ctx.toNat → exec (.rdcnt ctx idx) s = .next (answered s .invalidParameter 0)) ∧
    (∀ k, s.slots[ctx.toNat]? = some k →
      (k.st = .idle → exec (.rdcnt ctx idx) s = .next (answered s .invalidState 0)) ∧
      (k.st ≠ .idle → 3 < idx.toNat → exec (.rdcnt ctx idx) s = .next (answered s .invalidParameter 0)) ∧
      (k.st ≠ .idle → idx.toNat ≤ 3 → exec (.rdcnt ctx idx) s =
        .next (answered s .ok (BitVec.ofNat 32 (k.t.toNat / 2 ^ (32 * idx.toNat)))))) ∧
    (∀ w, fieldOp w = 7 → w.extractLsb' 8 16 ≠ 0 → acceptWord w s = .next (answered s .illegalCommand 0))

/-! ### Frames and rules over all commands -/

/-- R39, R66: whatever a command does, every other slot, the number of slots, the host's input and the delivered responses
are unchanged. -/
def Obligations.OtherSlotsUntouched : Prop :=
  ∀ (i : Instr) (s t : State), exec i s = .next t →
    t.slots.length = s.slots.length ∧ t.input = s.input ∧ t.delivered = s.delivered ∧
    ∀ j, j ≠ i.ctx.toNat → t.slots[j]? = s.slots[j]?

/-- R39: what a command answers and leaves in its slot depends on that slot alone. -/
def Obligations.CommandReadsOnlyItsSlot : Prop :=
  ∀ (i : Instr) (s s' t : State), s.slots[i.ctx.toNat]? = s'.slots[i.ctx.toNat]? → exec i s = .next t →
    ∃ t', exec i s' = .next t' ∧ t'.rsp = t.rsp ∧ t'.slots[i.ctx.toNat]? = t.slots[i.ctx.toNat]?

/-- R121, R122, R23: the frame of KEYB and UPDB. An accepted byte goes to the staging address and every other byte of the
buffer reads as before; the lengths and key flag never change; the chaining state, the counter and the internal storage
change only where UPDB compresses. -/
def Obligations.ByteCommandsFrame : Prop :=
  ∀ (i : Instr) (data : Byte) (s t : State) (k k' : Slot), stagedByte i = some data → exec i s = .next t →
    s.slots[i.ctx.toNat]? = some k → t.slots[i.ctx.toNat]? = some k' → t.rsp = some ⟨.ok, 0⟩ →
    (∀ addr, addr ≠ stagingAddress k → k'.byteAt addr = k.byteAt addr) ∧
    k'.byteAt (stagingAddress k) = some data ∧
    k'.nn = k.nn ∧ k'.kp = k.kp ∧ k'.kk = k.kk ∧
    (compresses i k = false → k'.h = k.h ∧ k'.t = k.t ∧ t.engine = s.engine)

/-- R123: the frame of FINAL. Bytes below c read as before, the others read 0; lengths and key flag are unchanged. -/
def Obligations.FinalFrame : Prop :=
  ∀ (ctx : Ctx) (s t : State) (k k' : Slot), exec (.final ctx) s = .next t →
    s.slots[ctx.toNat]? = some k → t.slots[ctx.toNat]? = some k' → t.rsp = some ⟨.ok, 0⟩ →
    (∀ addr, addr < k.c.toNat → k'.byteAt addr = k.byteAt addr) ∧
    (∀ addr, k.c.toNat ≤ addr → addr < 128 → k'.byteAt addr = some 0) ∧
    k'.nn = k.nn ∧ k'.kp = k.kp ∧ k'.kk = k.kk

/-- R66: RDDIG, RDSTAT and RDCNT change no state: only the response port is written. -/
def Obligations.ReadsChangeNoState : Prop :=
  ∀ (i : Instr) (s t : State), isRead i = true → exec i s = .next t → ∃ r, t = { s with rsp := some r }

/-- R226: a command word that raises an error writes no state, in any slot, and returns DATA = 0. -/
def Obligations.ErrorsWriteNothing : Prop :=
  ∀ (w : Word) (s t : State) (r : Response), acceptWord w s = .next t → t.rsp = some r → r.err ≠ .ok →
    t = { s with rsp := some r } ∧ r.data = 0

/-- R225: when several errors apply, the first in the order of the rule is reported, and with none of them the answer is
OK. -/
def Obligations.FirstErrorReported : Prop :=
  ∀ (w : Word) (s t : State), acceptWord w s = .next t → ∃ r, t.rsp = some r ∧ r.err = firstError w s

/-- R127: the slot state machine. A command the state forbids answers InvalidState; a command that succeeds moves the slot
as the table says; one that fails leaves the slot's state. -/
def Obligations.SlotStateMachine : Prop :=
  ∀ (i : Instr) (s t : State) (k k' : Slot) (r : Response), exec i s = .next t →
    s.slots[i.ctx.toNat]? = some k → t.slots[i.ctx.toNat]? = some k' → t.rsp = some r →
    (r.err = .invalidState ↔ stateForbids i k.st = true) ∧
    (r.err = .ok → mayBecome i k.st k'.st = true) ∧
    (r.err ≠ .ok → k'.st = k.st)

/-- R26, R27: no command but INIT changes a slot's digest length, key flag or key length. -/
def Obligations.OnlyInitSetsLengths : Prop :=
  ∀ (i : Instr) (s t : State), isInit i = false → exec i s = .next t →
    ∀ j : Nat, (t.slots[j]?).map (fun k => (k.nn, k.kp, k.kk)) = (s.slots[j]?).map (fun k => (k.nn, k.kp, k.kk))

/-- R22, R24, R166: a slot's chaining state and counter change only by INIT, by an UPDB that finds the buffer full, and by
FINAL. -/
def Obligations.OnlyCompressionsChangeChain : Prop :=
  ∀ (i : Instr) (s t : State) (k k' : Slot), isInit i = false → exec i s = .next t →
    s.slots[i.ctx.toNat]? = some k → t.slots[i.ctx.toNat]? = some k' → compresses i k = false →
    k'.h = k.h ∧ k'.t = k.t

/-- R100: every accepted word produces one response; its DATA is 0 with an error and for INIT, KEYB, UPDB and FINAL, and a
byte for RDDIG. -/
def Obligations.EveryWordOneResponse : Prop :=
  ∀ (w : Word) (s t : State), acceptWord w s = .next t →
    ∃ r, t.rsp = some r ∧ (r.err ≠ .ok → r.data = 0) ∧
      ∀ i, decode w = .ok i → (isRead i = false → r.data = 0) ∧ (∀ ctx idx, i = .rddig ctx idx → r.data.toNat < 256)

/-! ### Views -/

/-- R35: every field of the STATUS word, in IDLE and outside it. -/
def Obligations.StatusFields : Prop :=
  ∀ k : Slot,
    (k.st = .idle → k.status = 0) ∧
    (k.st ≠ .idle →
      k.status.extractLsb' 0 2 = (match k.st with | .idle => 0#2 | .keying => 1#2 | .absorb => 2#2 | .done => 3#2) ∧
      k.status.extractLsb' 2 6 = 0 ∧ k.status.extractLsb' 8 8 = k.c ∧ k.status.extractLsb' 16 7 = k.nn ∧
      k.status.getLsbD 23 = k.kp ∧ k.status.extractLsb' 24 7 = k.kk ∧ k.status.getLsbD 31 = false)

/-- R36: the four slices of the counter view, least significant first, make up the counter. -/
def Obligations.CounterSlices : Prop :=
  ∀ t : BitVec 128,
    (∀ k, k ≤ 3 → counterSlice t k = BitVec.ofNat 32 (t.toNat / 2 ^ (32 * k))) ∧
    counterSlice t 3 ++ counterSlice t 2 ++ counterSlice t 1 ++ counterSlice t 0 = t

/-! ### The port and the step -/

/-- R102, R104: with no response pending and reset low, a step that is offered a word accepts it: it runs the command the
word decodes to, on the state with the event taken off the input; a word that is no command answers IllegalCommand.
The event list is the model's own choice (notes/assumptions/4.md). -/
def Obligations.StepRunsOfferedCommand : Prop :=
  ∀ (s : State) (p : PortIn) (rest : List PortIn), s.rsp = none → s.input = p :: rest → p.rst = false → p.cmdValid = true →
    (∀ i, decode p.cmdWord = .ok i → step s = exec i { s with input := rest }) ∧
    (∀ e, decode p.cmdWord = .error e → step s = .next (answered { s with input := rest } .illegalCommand 0))

/-- The model's loading of one word (notes/assumptions/5.md): the next step accepts exactly that word. -/
def Obligations.FetchWordIsAccepted : Prop :=
  ∀ (s : State) (w : Word), step (s.withFetchWord 32 w.toNat) = acceptWord w { s with rsp := none }

/-- R103: while a response is pending no command is accepted, whatever the host offers; the response is delivered, in
order, when the host is ready, and kept otherwise. With nothing pending and nothing offered the core waits.
The event list is the model's own choice (notes/assumptions/4.md). -/
def Obligations.OneCommandOutstanding : Prop :=
  ∀ (s : State) (p : PortIn) (rest : List PortIn), s.input = p :: rest → p.rst = false →
    (∀ r, s.rsp = some r → s.cmdReady p.rst = false ∧ s.rspValid p.rst = true ∧
      (p.rspReady = true → step s = .next { s with input := rest, rsp := none, delivered := s.delivered ++ [r] }) ∧
      (p.rspReady = false → step s = .next { s with input := rest })) ∧
    (s.rsp = none → s.cmdReady p.rst = true ∧ s.rspValid p.rst = false ∧
      (p.cmdValid = false → step s = .next { s with input := rest }))

/-- R250: while reset is asserted nothing is accepted or offered; every slot becomes IDLE, an undelivered response is
discarded, and no response is produced for it. That one event completes the reset, and that the record of the host is kept, is the
model's choice (notes/assumptions/8.md). -/
def Obligations.ResetIdlesEverySlot : Prop :=
  ∀ (s : State) (p : PortIn) (rest : List PortIn), s.input = p :: rest → p.rst = true →
    s.cmdReady p.rst = false ∧ s.rspValid p.rst = false ∧
    ∃ t, step s = .next t ∧ t.slots.length = s.slots.length ∧ (∀ k ∈ t.slots, k.st = .idle) ∧ t.rsp = none ∧
      t.engine.seq = none ∧ t.delivered = s.delivered ∧ t.input = rest

/-- R38, R251, R252: right after reset every slot is IDLE and no response is pending; the core waits, ready for a command;
every data command on a slot raises InvalidState and STATUS reads 0. That a host with no events left drives nothing is the
model's choice (notes/assumptions/4.md). -/
def Obligations.ResetStateWaits : Prop :=
  ∀ n : Nat,
    let s := State.resetFor n
    s.slots.length = n ∧ (∀ k ∈ s.slots, k.st = .idle) ∧ s.rsp = none ∧ s.engine.seq = none ∧ s.cmdReady false = true ∧
    step s = .next s ∧
    ∀ (ctx : Ctx) (x : Byte), ctx.toNat < n →
      exec (.keyb ctx x) s = .next (answered s .invalidState 0) ∧
      exec (.updb ctx x) s = .next (answered s .invalidState 0) ∧
      exec (.final ctx) s = .next (answered s .invalidState 0) ∧
      exec (.rddig ctx x) s = .next (answered s .invalidState 0) ∧
      exec (.rdcnt ctx x) s = .next (answered s .invalidState 0) ∧
      exec (.rdstat ctx) s = .next (answered s .ok 0)

/-! ### Invariants and safety -/

/-- The invariant holds after reset, for every NCTX the spec allows and at the model's own choice
(notes/assumptions/1.md). -/
def Obligations.ResetMeetsInvariant : Prop :=
  (∀ n, 1 ≤ n → n ≤ 16 → (State.resetFor n).Inv) ∧ State.reset.Inv

/-- R25, R27, R30, R131: every step keeps the invariant of the machine. -/
def Obligations.StepKeepsInvariant : Prop := ∀ s s' : State, s.Inv → step s = .next s' → s'.Inv

/-- R8, R104: from every state that meets the invariant the machine goes on for any number of steps: the "specification
error" accesses never arise, and no command is refused. -/
def Obligations.RunsNeverStop : Prop :=
  ∀ (s : State) (n : Nat), s.Inv → ∃ s', Host.Core.run core n s = .next s' ∧ s'.Inv

/-- R104: `exec` is total: from every state that meets the invariant every command word is answered. -/
def Obligations.EveryWordAnswered : Prop :=
  ∀ (s : State) (w : Word), s.Inv → ∃ t r, acceptWord w s = .next t ∧ t.rsp = some r ∧ t.Inv

/-- R8: exactly where the model stops: a command stops only where it would need an access that R8 calls a specification
error, and everywhere else it ends in a next state. No command is refused. That the model stops
there is its own choice (notes/assumptions/7.md). -/
def Obligations.StopsAreSpecificationErrors : Prop :=
  ∀ (i : Instr) (s : State),
    (∀ k f, s.slots[i.ctx.toNat]? = some k → specificationError i k = some f → exec i s = .fault f) ∧
    ((∀ k, s.slots[i.ctx.toNat]? = some k → specificationError i k = none) → ∃ t, exec i s = .next t)

/-! ### What a host can observe -/

/-- R28, R31, R38: the fields of an IDLE slot and the internal storage outside a compression cannot be observed: two
machines that differ only there stay alike for ever, answer alike, and stop alike. -/
def Obligations.IdleFieldsUnobservable : Prop :=
  ∀ s s' : State, s.SameVisible s' →
    (∀ t, step s = .next t → ∃ t', step s' = .next t' ∧ t.SameVisible t') ∧
    (∀ f, step s = .fault f → step s' = .fault f)

/-- R229: no answer depends on the bytes of a buffer, nor on a chaining state before FINAL. -/
def Obligations.BufferAndChainConfidential : Prop :=
  ∀ (s s' t : State) (w : Word), List.Forall₂ Slot.SameButSecret s.slots s'.slots → acceptWord w s = .next t →
    ∃ t', acceptWord w s' = .next t' ∧ t'.rsp = t.rsp

/-! ### Runs -/

/-- R103, R104: issuing commands word by word on the port, and taking each response, is running the commands.
The event list is the model's own choice (notes/assumptions/4.md). -/
def Obligations.PortRunsCommands : Prop :=
  ∀ (is : List Instr) (rest : List PortIn) (s t : State), s.rsp = none →
    runCommands is { s with input := rest } = .next t →
    Host.Core.run core (2 * is.length) { s with input := drive (is.map encode) ++ rest } = .next t

/-- R39: of any interleaving of commands, the slot a ends in the state it would reach alone. -/
def Obligations.InterleavedSessionsIndependent : Prop :=
  ∀ (is : List Instr) (a : Ctx) (s t : State), runCommands is s = .next t →
    ∃ t', runCommands (is.filter fun i => i.ctx == a) s = .next t' ∧ t'.slots[a.toNat]? = t.slots[a.toNat]?

/-- R128: feeding a byte string in pieces. Between the pieces stand commands on other slots and reads of any slot (`gap`).
From two machines with the same slot, the pieces on one and the whole string on the other leave the same slot; and whatever
commands on that slot follow, its FINAL and its digest among them, are answered alike and leave the same slot. -/
def Obligations.ChunkingIrrelevant : Prop :=
  ∀ (ctx : Ctx) (pieces : List (List Byte × List Instr)) (s s' t : State),
    (∀ p ∈ pieces, ∀ i ∈ p.2, i.ctx ≠ ctx ∨ isRead i = true) →
    s.slots[ctx.toNat]? = s'.slots[ctx.toNat]? →
    runCommands (pieces.flatMap fun p => updateCmds ctx p.1 ++ p.2) s = .next t →
    ∃ t', runCommands (updateCmds ctx (pieces.flatMap Prod.fst)) s' = .next t' ∧
      t'.slots[ctx.toNat]? = t.slots[ctx.toNat]? ∧
      ∀ (js : List Instr) (u : State), (∀ j ∈ js, j.ctx = ctx) → runCommands js t = .next u →
        ∃ (u' : State) (rs : List Response), runCommands js t' = .next u' ∧
          u'.slots[ctx.toNat]? = u.slots[ctx.toNat]? ∧ rs.length = js.length ∧
          u.delivered = t.delivered ++ rs ∧ u'.delivered = t'.delivered ++ rs

/-- R129: the state a keyed INIT and its key bytes leave, from every state of the slot. -/
def Obligations.KeyPathState : Prop :=
  ∀ (s : State) (ctx : Ctx) (nn : Nat) (ks : List Byte), ctx.toNat < s.slots.length → 1 ≤ nn → nn ≤ 64 →
    1 ≤ ks.length → ks.length ≤ 64 →
    ∃ (t : State) (k : Slot), runCommands (openCmds ctx nn (some ks)) s = .next t ∧ t.slots[ctx.toNat]? = some k ∧
      k.h = iv32.set 0 (iv32[0] ^^^ (0x01010000#32 ^^^ BitVec.ofNat 32 (ks.length * 256) ^^^ BitVec.ofNat 32 nn)) ∧
      k.b.toList = ks ++ List.replicate (128 - ks.length) 0 ∧ k.c = 128 ∧ k.t = 0 ∧ k.st = .absorb

/-- R129, R130, R131: after INIT, the key and a message, the slot holds the chaining state of one non-final compression for
each full block but the last, its counter is 128 times their number, and the rest of the data is staged. FINAL then makes
the one final compression, with the counter at the total length. -/
def Obligations.MessageIsFoldedBlockByBlock : Prop :=
  ∀ (s : State) (ctx : Ctx) (nn : Nat) (key : Option (List Byte)) (msg : List Byte),
    ctx.toNat < s.slots.length → 1 ≤ nn → nn ≤ 64 →
    (∀ ks, key = some ks → 1 ≤ ks.length ∧ ks.length ≤ 64) →
    (Native.keyBlock key ++ msg).length ≤ 2 ^ 128 - 1 →
    let data := Native.keyBlock key ++ msg
    let n := Native.nonFinal data.length
    let h0 := Native.initChain nn ((key.getD []).length)
    ∃ (t t' : State) (k k' : Slot),
      runCommands (openCmds ctx nn key ++ updateCmds ctx msg) s = .next t ∧ t.slots[ctx.toNat]? = some k ∧
      k.st = .absorb ∧ Native.chainLanes k.h = Native.chainAfter h0 data n ∧
      k.t.toNat = 128 * n ∧ k.c.toNat = data.length - 128 * n ∧
      (∀ j, j < k.c.toNat → k.byteAt j = data[128 * n + j]?) ∧
      exec (.final ctx) t = .next t' ∧ t'.slots[ctx.toNat]? = some k' ∧
      k'.st = .done ∧ Native.chainLanes k'.h = Native.finalChain h0 data ∧ k'.t.toNat = data.length

/-- R112, R63, R129, R130: the HASH pseudo-instruction, on any slot in any state, answers OK throughout, and its RDDIG
responses are the digest of the message under the key, computed over native 64-bit lanes. -/
def Obligations.HashAnswersDigest : Prop :=
  ∀ (s : State) (ctx : Ctx) (nn : Nat) (key : Option (List Byte)) (msg : List Byte),
    ctx.toNat < s.slots.length → 1 ≤ nn → nn ≤ 64 →
    (∀ ks, key = some ks → 1 ≤ ks.length ∧ ks.length ≤ 64) →
    (Native.keyBlock key ++ msg).length ≤ 2 ^ 128 - 1 →
    ∃ t, runCommands (hashCmds ctx nn key msg) s = .next t ∧
      t.delivered = s.delivered ++ List.replicate ((key.getD []).length + msg.length + 2) ⟨.ok, 0⟩
        ++ (Native.blake2b nn key msg).map fun d => ⟨.ok, d.setWidth 32⟩

/-! ### An IDLE slot, and the error codes -/

/-- R252, R28: until its INIT a slot in IDLE is unusable. Every command but INIT that names it answers InvalidState, or for
RDSTAT 0, and writes nothing; and every step leaves it in IDLE but one that accepts an INIT of it. The event list of the step is the
model's own choice (notes/assumptions/4.md). -/
def Obligations.IdleSlotWaitsForInit : Prop :=
  (∀ (i : Instr) (s : State) (k : Slot), isInit i = false → s.slots[i.ctx.toNat]? = some k → k.st = .idle →
    ((∃ ctx, i = .rdstat ctx) → exec i s = .next (answered s .ok 0)) ∧
    ((∀ ctx, i ≠ .rdstat ctx) → exec i s = .next (answered s .invalidState 0))) ∧
  (∀ (s t : State) (n : Nat) (k : Slot), s.slots[n]? = some k → k.st = .idle → step s = .next t →
    (∀ p rest i, s.input = p :: rest → p.rst = false → p.cmdValid = true → s.rsp = none → decode p.cmdWord = .ok i →
      isInit i = true → i.ctx.toNat ≠ n) →
    ∃ k', t.slots[n]? = some k' ∧ k'.st = .idle)

/-- R220: the code of each error, as rsp_err shows it; rsp_data beside it. Every accepted word leaves the code of the first
error that applies, so none of the codes 5 to 15, and with an error the data 0. -/
def Obligations.ErrorCodesOnThePort : Prop :=
  (∀ (s : State) (e : ErrorCode) (d : BitVec 32), s.rsp = some ⟨e, d⟩ →
    s.rspErr = some (match e with
      | .ok => 0#4 | .invalidParameter => 1#4 | .invalidState => 2#4 | .illegalCommand => 3#4 | .counterRange => 4#4) ∧
    s.rspData = some d) ∧
  (∀ (w : Word) (s t : State), acceptWord w s = .next t →
    ∃ (c : BitVec 4) (d : BitVec 32), t.rspErr = some c ∧ t.rspData = some d ∧ c.toNat ≤ 4 ∧ (c ≠ 0 → d = 0) ∧
      (c = 0 ↔ firstError w s = .ok) ∧ (c = 1 ↔ firstError w s = .invalidParameter) ∧
      (c = 2 ↔ firstError w s = .invalidState) ∧ (c = 3 ↔ firstError w s = .illegalCommand) ∧
      (c = 4 ↔ firstError w s = .counterRange))
end

