-- ==== Sys2Proof/Laws/State.lean ====
section
/-!
SUPPORT. One lemma for each field of each update of the state, true by rfl, so that no proof unfolds a record update.
-/

namespace Sys2Proof.Machine

variable (s : State) (ctx : Ctx) (k : Slot) (e : ErrorCode) (d : BitVec 32) (last : Bool)

@[simp] theorem respond_slots : (s.respond e d).slots = s.slots := rfl
@[simp] theorem respond_engine : (s.respond e d).engine = s.engine := rfl
@[simp] theorem respond_rsp : (s.respond e d).rsp = some ⟨e, d⟩ := rfl
@[simp] theorem respond_input : (s.respond e d).input = s.input := rfl
@[simp] theorem respond_delivered : (s.respond e d).delivered = s.delivered := rfl

@[simp] theorem setSlot_slots : (s.setSlot ctx k).slots = s.slots.set ctx.toNat k := rfl
@[simp] theorem setSlot_engine : (s.setSlot ctx k).engine = s.engine := rfl
@[simp] theorem setSlot_rsp : (s.setSlot ctx k).rsp = s.rsp := rfl
@[simp] theorem setSlot_input : (s.setSlot ctx k).input = s.input := rfl
@[simp] theorem setSlot_delivered : (s.setSlot ctx k).delivered = s.delivered := rfl

@[simp] theorem runEngine_slots : (s.runEngine k last).slots = s.slots := rfl
@[simp] theorem runEngine_engine : (s.runEngine k last).engine = Engine.compressed k.h k.b k.t last := rfl
@[simp] theorem runEngine_rsp : (s.runEngine k last).rsp = s.rsp := rfl
@[simp] theorem runEngine_input : (s.runEngine k last).input = s.input := rfl
@[simp] theorem runEngine_delivered : (s.runEngine k last).delivered = s.delivered := rfl

@[simp] theorem onReset_slots : s.onReset.slots = List.replicate s.slots.length Slot.reset := rfl
@[simp] theorem onReset_engine : s.onReset.engine = Engine.reset := rfl
@[simp] theorem onReset_rsp : s.onReset.rsp = none := rfl
@[simp] theorem onReset_input : s.onReset.input = s.input := rfl
@[simp] theorem onReset_delivered : s.onReset.delivered = s.delivered := rfl

@[simp] theorem resetFor_slots (n : Nat) : (State.resetFor n).slots = List.replicate n Slot.reset := rfl
@[simp] theorem resetFor_engine (n : Nat) : (State.resetFor n).engine = Engine.reset := rfl
@[simp] theorem resetFor_rsp (n : Nat) : (State.resetFor n).rsp = none := rfl
@[simp] theorem resetFor_input (n : Nat) : (State.resetFor n).input = [] := rfl
@[simp] theorem resetFor_delivered (n : Nat) : (State.resetFor n).delivered = [] := rfl

@[simp] theorem compress_st : (k.compress last).st = k.st := rfl
@[simp] theorem compress_h : (k.compress last).h = compressChain k.h k.b k.t last := rfl
@[simp] theorem compress_b : (k.compress last).b = k.b := rfl
@[simp] theorem compress_t : (k.compress last).t = k.t := rfl
@[simp] theorem compress_c : (k.compress last).c = k.c := rfl
@[simp] theorem compress_nn : (k.compress last).nn = k.nn := rfl
@[simp] theorem compress_kp : (k.compress last).kp = k.kp := rfl
@[simp] theorem compress_kk : (k.compress last).kk = k.kk := rfl

@[simp] theorem flush_st : k.flush.st = k.st := rfl
@[simp] theorem flush_h : k.flush.h = compressChain k.h k.b (k.t + 128) false := rfl
@[simp] theorem flush_b : k.flush.b = k.b := rfl
@[simp] theorem flush_t : k.flush.t = k.t + 128 := rfl
@[simp] theorem flush_c : k.flush.c = 0 := rfl
@[simp] theorem flush_nn : k.flush.nn = k.nn := rfl
@[simp] theorem flush_kp : k.flush.kp = k.kp := rfl
@[simp] theorem flush_kk : k.flush.kk = k.kk := rfl

@[simp] theorem padded_st : k.padded.st = k.st := rfl
@[simp] theorem padded_h : k.padded.h = k.h := rfl
@[simp] theorem padded_b : k.padded.b = zeroFrom k.b k.c.toNat := rfl
@[simp] theorem padded_t : k.padded.t = k.t + k.c.setWidth 128 := rfl
@[simp] theorem padded_c : k.padded.c = 128 := rfl
@[simp] theorem padded_nn : k.padded.nn = k.nn := rfl
@[simp] theorem padded_kp : k.padded.kp = k.kp := rfl
@[simp] theorem padded_kk : k.padded.kk = k.kk := rfl

section PutByte
variable (data : Byte) (hc : k.c.toNat + 1 ≤ 128)
@[simp] theorem putByte_st : (k.putByte data hc).st = k.st := rfl
@[simp] theorem putByte_h : (k.putByte data hc).h = k.h := rfl
@[simp] theorem putByte_t : (k.putByte data hc).t = k.t := rfl
@[simp] theorem putByte_c : (k.putByte data hc).c = k.c + 1 := rfl
@[simp] theorem putByte_nn : (k.putByte data hc).nn = k.nn := rfl
@[simp] theorem putByte_kp : (k.putByte data hc).kp = k.kp := rfl
@[simp] theorem putByte_kk : (k.putByte data hc).kk = k.kk := rfl

/-- R8: writing one byte writes the byte at its address. -/
theorem memWrite_one (b : Buffer) (addr : Nat) (h : addr + 1 ≤ 128) (x : BitVec (8 * 1)) :
    memWrite b addr 1 h x = b.set addr x := by
  simp [memWrite]

@[simp] theorem putByte_b : (k.putByte data hc).b = k.b.set k.c.toNat data := memWrite_one _ _ hc _
end PutByte

/-- A slot written is the slot read back, where it exists. -/
@[simp] theorem slot?_setSlot_self (h : ctx.toNat < s.slots.length) : (s.setSlot ctx k).slot? ctx = some k := by
  simp [State.slot?, h]

/-- R39: writing one slot leaves the others. -/
theorem slot?_setSlot_other (ctx' : Ctx) (h : ctx' ≠ ctx) : (s.setSlot ctx k).slot? ctx' = s.slot? ctx' := by
  have : ctx.toNat ≠ ctx'.toNat := fun e => h (BitVec.eq_of_toNat_eq e).symm
  simp [State.slot?, List.getElem?_set_ne this]

end Sys2Proof.Machine
end

