-- ==== Sys2Proof/Laws/Commands.lean ====
section
/-!
SUPPORT. What a command can do, said once: `Effect` is what an accepted INIT, KEYB, UPDB or FINAL makes of its slot and of
the internal storage, `Reading` what an accepted read answers, and `exec_next` the three ways a command can end in a next
state. Claims about commands cite these and do not unfold the meanings.
-/

namespace Sys2Proof.Machine

/-- What an accepted writing command makes of its slot k, and the internal storage it leaves, given that before it. -/
inductive Effect : Instr → Slot → Engine → Slot → Engine → Prop
  | init {ctx kp kk nn k e} : nnInRange nn = true → kkInRange kp kk = true →
      Effect (.init ctx kp kk nn) k e (freshSlot kp kk nn) e
  | keyb {ctx data k e} (h : k.c.toNat + 1 ≤ 128) : k.st = .keying →
      Effect (.keyb ctx data) k e (k.putByte data h).completeKey e
  | stage {ctx data k e} (h : k.c.toNat + 1 ≤ 128) : k.st = .absorb → k.c ≠ 128 →
      Effect (.updb ctx data) k e (k.putByte data h) e
  | flush {ctx data k e} (h : k.flush.c.toNat + 1 ≤ 128) : k.st = .absorb → k.c = 128 → counterWouldPass k.t 128 = false →
      Effect (.updb ctx data) k e (k.flush.putByte data h) (Engine.compressed k.h k.b (k.t + 128) false)
  | final {ctx k e} : k.st = .absorb → counterWouldPass k.t k.c.toNat = false →
      Effect (.final ctx) k e { k.padded.compress true with st := .done }
        (Engine.compressed k.padded.h k.padded.b k.padded.t true)

/-- What an accepted read of slot k answers. -/
inductive Reading : Instr → Slot → BitVec 32 → Prop
  | rddig {ctx idx k} (h : idx.toNat < 64) : k.st = .done → idx.toNat < k.nn.toNat →
      Reading (.rddig ctx idx) k ((digestByte k.h idx.toNat h).setWidth 32)
  | rdstat {ctx k} : Reading (.rdstat ctx) k k.status
  | rdcnt {ctx idx k} : k.st ≠ .idle → idx.toNat ≤ 3 → Reading (.rdcnt ctx idx) k (counterSlice k.t idx.toNat)

theorem withSlot_of_none {ctx : Ctx} {s : State} (h : s.slots[ctx.toNat]? = none) (f : Slot → Result) :
    withSlot ctx s f = s.raise .invalidParameter := by
  have : s.slot? ctx = none := h
  simp only [withSlot, this]

theorem withSlot_of_some {ctx : Ctx} {s : State} {k : Slot} (h : s.slots[ctx.toNat]? = some k) (f : Slot → Result) :
    withSlot ctx s f = f k := by
  have : s.slot? ctx = some k := h
  simp only [withSlot, this]

/-- R225, R221 a: on a slot that does not exist every command answers InvalidParameter. -/
theorem exec_no_slot {i : Instr} {s : State} (h : s.slots[i.ctx.toNat]? = none) : exec i s = s.raise .invalidParameter := by
  cases i <;> exact withSlot_of_none h _

/-- On a slot that exists a command answers an error and writes nothing, or answers a reading and writes nothing, or has its
effect on the slot, or stops outside the invariant. -/
theorem exec_slot (i : Instr) {s : State} {k : Slot} (h : s.slots[i.ctx.toNat]? = some k) :
    (∃ e, e ≠ .ok ∧ exec i s = s.raise e) ∨
    (∃ d, Reading i k d ∧ exec i s = s.reply d) ∨
    (∃ k' e, Effect i k s.engine k' e ∧ exec i s = .next (({ s with engine := e }.setSlot i.ctx k').respond .ok 0)) ∨
    (∃ f, exec i s = .fault f ∧ ¬ (k.st ≠ .idle → k.c.toNat ≤ 128 ∧ k.nn.toNat ≤ 64 ∧ (k.st = .keying → k.c.toNat < 128))) := by
  cases i with
  | init ctx kp kk nn =>
    have hs : s.slots[ctx.toNat]? = some k := h
    simp only [exec, execInit, withSlot_of_some hs]
    by_cases h1 : nnInRange nn = true
    · by_cases h2 : kkInRange kp kk = true
      · exact .inr (.inr (.inl ⟨_, _, .init h1 h2, by simp only [h1, h2, Bool.not_true, Bool.false_eq_true, if_false]; rfl⟩))
      · exact .inl ⟨.invalidParameter, by decide, by simp only [h1, Bool.not_true, Bool.false_eq_true, if_false]; rw [if_pos (by simpa using h2)]⟩
    · exact .inl ⟨.invalidParameter, by decide, by rw [if_pos (by simpa using h1)]⟩
  | keyb ctx data =>
    have hs : s.slots[ctx.toNat]? = some k := h
    simp only [exec, execKeyb, withSlot_of_some hs]
    by_cases h1 : k.st = .keying
    · by_cases h2 : k.c.toNat + 1 ≤ 128
      · exact .inr (.inr (.inl ⟨_, _, .keyb h2 h1, by rw [if_neg (by simpa using h1), dif_pos h2]; rfl⟩))
      · refine .inr (.inr (.inr ⟨_, by rw [if_neg (by simpa using h1), dif_neg h2], fun hk => ?_⟩))
        have := (hk (by rw [h1]; decide)).2.2 h1
        omega
    · exact .inl ⟨.invalidState, by decide, by rw [if_pos h1]⟩
  | updb ctx data =>
    have hs : s.slots[ctx.toNat]? = some k := h
    simp only [exec, execUpdb, withSlot_of_some hs]
    by_cases h1 : k.st = .absorb
    · rw [if_neg (by simpa using h1)]
      by_cases h2 : k.c = 128
      · rw [if_pos h2]
        by_cases h3 : counterWouldPass k.t 128 = true
        · exact .inl ⟨.counterRange, by decide, by rw [if_pos h3]⟩
        · exact .inr (.inr (.inl ⟨_, _, .flush (by simp) h1 h2 (by simpa using h3), by rw [if_neg h3]; rfl⟩))
      · rw [if_neg h2]
        by_cases h3 : k.c.toNat + 1 ≤ 128
        · exact .inr (.inr (.inl ⟨_, _, .stage h3 h1 h2, by rw [dif_pos h3]; rfl⟩))
        · refine .inr (.inr (.inr ⟨_, by rw [dif_neg h3], fun hk => ?_⟩))
          have := (hk (by rw [h1]; decide)).1
          exact h2 (BitVec.eq_of_toNat_eq (by simp; omega))
    · exact .inl ⟨.invalidState, by decide, by rw [if_pos h1]⟩
  | final ctx =>
    have hs : s.slots[ctx.toNat]? = some k := h
    simp only [exec, execFinal, withSlot_of_some hs]
    by_cases h1 : k.st = .absorb
    · rw [if_neg (by simpa using h1)]
      by_cases h2 : counterWouldPass k.t k.c.toNat = true
      · exact .inl ⟨.counterRange, by decide, by rw [if_pos h2]⟩
      · exact .inr (.inr (.inl ⟨_, _, .final h1 (by simpa using h2), by rw [if_neg h2]; rfl⟩))
    · exact .inl ⟨.invalidState, by decide, by rw [if_pos h1]⟩
  | rddig ctx idx =>
    have hs : s.slots[ctx.toNat]? = some k := h
    simp only [exec, execRddig, withSlot_of_some hs]
    by_cases h1 : k.st = .done
    · rw [if_neg (by simpa using h1)]
      by_cases h2 : k.nn.toNat ≤ idx.toNat
      · exact .inl ⟨.invalidParameter, by decide, by rw [if_pos h2]⟩
      · rw [if_neg h2]
        by_cases h3 : idx.toNat < 64
        · exact .inr (.inl ⟨_, .rddig h3 h1 (by omega), by rw [dif_pos h3]⟩)
        · refine .inr (.inr (.inr ⟨_, by rw [dif_neg h3], fun hk => ?_⟩))
          have := (hk (by rw [h1]; decide)).2.1
          omega
    · exact .inl ⟨.invalidState, by decide, by rw [if_pos h1]⟩
  | rdstat ctx =>
    have hs : s.slots[ctx.toNat]? = some k := h
    simp only [exec, execRdstat, withSlot_of_some hs]
    exact .inr (.inl ⟨_, .rdstat, rfl⟩)
  | rdcnt ctx idx =>
    have hs : s.slots[ctx.toNat]? = some k := h
    simp only [exec, execRdcnt, withSlot_of_some hs]
    by_cases h1 : k.st = .idle
    · exact .inl ⟨.invalidState, by decide, by rw [if_pos h1]⟩
    · rw [if_neg h1]
      by_cases h2 : 3 < idx.toNat
      · exact .inl ⟨.invalidParameter, by decide, by rw [if_pos h2]⟩
      · exact .inr (.inl ⟨_, .rdcnt h1 (by omega), by rw [if_neg h2]⟩)

/-- A command that ends in a next state has answered an error and written nothing, or answered a reading and written
nothing, or had its effect on its slot. -/
theorem exec_next {i : Instr} {s t : State} (h : exec i s = .next t) :
    (∃ e, e ≠ .ok ∧ t = s.respond e 0) ∨
    (∃ k d, s.slots[i.ctx.toNat]? = some k ∧ Reading i k d ∧ t = s.respond .ok d) ∨
    (∃ k k' e, s.slots[i.ctx.toNat]? = some k ∧ Effect i k s.engine k' e ∧
      t = ({ s with engine := e }.setSlot i.ctx k').respond .ok 0) := by
  cases hk : s.slots[i.ctx.toNat]? with
  | none =>
    rw [exec_no_slot hk] at h
    exact .inl ⟨.invalidParameter, by decide, by cases h; rfl⟩
  | some k =>
    rcases exec_slot i hk with ⟨e, he, h'⟩ | ⟨d, hd, h'⟩ | ⟨k', e, he, h'⟩ | ⟨f, h', _⟩ <;> rw [h'] at h
    · exact .inl ⟨e, he, by cases h; rfl⟩
    · exact .inr (.inl ⟨k, d, rfl, hd, by cases h; rfl⟩)
    · exact .inr (.inr ⟨k, k', e, rfl, he, by cases h; rfl⟩)
    · cases h

end Sys2Proof.Machine
end

