-- ==== Sys2Proof/Laws/Compression.lean ====
section
/-!
SUPPORT. What the buffer operations and the compression engine do: the bits `MemRead` reads (spec/00_scope.md R8), the
message words (20_memory.md R62), the zero padding (40_context_commands.md R123) and the sequencer's walk (10_state.md R30).
-/

namespace Sys2Proof.Machine

/-- R8: bit i of `MemRead(addr, n)` is bit i mod 8 of the byte at addr + i div 8. -/
theorem memRead_getLsbD (b : Buffer) (addr n : Nat) (h : addr + n ≤ 128) (i : Nat) (hi : i < 8 * n) :
    (memRead b addr n h).getLsbD i = (b[addr + i / 8]'(by omega)).getLsbD (i % 8) := by
  induction n generalizing addr i with
  | zero => omega
  | succ n ih =>
    unfold memRead
    rw [BitVec.getLsbD_append]
    by_cases h8 : i < 8
    · simp [h8, Nat.div_eq_of_lt h8, Nat.mod_eq_of_lt h8]
    · rw [if_neg h8, ih (addr + 1) (by omega) (i - 8) (by omega)]
      have e1 : addr + 1 + (i - 8) / 8 = addr + i / 8 := by omega
      have e2 : (i - 8) % 8 = i % 8 := by omega
      simp only [e1, e2]

/-- R161: message word j is `MemRead(4j, 4)`. -/
theorem loadBlock_getElem (b : Buffer) (j : Nat) (hj : j < 32) : (loadBlock b)[j] = memRead b (4 * j) 4 (by omega) := by
  simp [loadBlock]

/-- R123: the bytes below c are kept and those from c on are zero. -/
theorem zeroFrom_getElem? (b : Buffer) (c j : Nat) :
    (zeroFrom b c)[j]? = if j < c then b[j]? else if j < 128 then some 0 else none := by
  by_cases hj : j < 128
  · rw [show (zeroFrom b c)[j]? = some (zeroFrom b c)[j] from Vector.getElem?_eq_getElem hj,
      show b[j]? = some b[j] from Vector.getElem?_eq_getElem hj]
    unfold zeroFrom
    simp only [Vector.getElem_ofFn]
    split <;> simp
  · rw [Vector.getElem?_eq_none (by omega), Vector.getElem?_eq_none (by omega)]; simp [hj]

/-- Steps of the sequencer add up. -/
theorem ticks_add (a b : Nat) (e : Engine) : e.ticks (a + b) = (e.ticks a).ticks b := by
  induction a generalizing e with
  | zero => simp [Engine.ticks]
  | succ n ih => rw [Nat.succ_add]; exact ih _

/-- R30, R183: eight steps from the start of a round are that round. -/
theorem ticks_round (r : Fin 12) (v : Working) (m : Block) :
    (⟨v, m, some (r, 0)⟩ : Engine).ticks 8 =
      ⟨mixRound r m v, m, if h : r.val + 1 < 12 then some (⟨r.val + 1, h⟩, 0) else none⟩ := by
  simp [Engine.ticks, Engine.tick, nextSeq, mixRound]

/-- R30, R184: after r rounds the sequencer stands at (r, 0). -/
theorem ticks_rounds (h : Chain) (b : Buffer) (t : BitVec 128) (last : Bool) (r : Fin 12) :
    (Engine.start h b t last).ticks (8 * r.val) =
      ⟨((List.finRange 12).take r.val).foldl (fun v r => mixRound r (loadBlock b) v) (seedWorking h t last), loadBlock b,
        some (r, 0)⟩ := by
  unfold Engine.start
  generalize seedWorking h t last = v
  generalize loadBlock b = m
  obtain ⟨n, hn⟩ := r
  induction n with
  | zero => simp [Engine.ticks]
  | succ n ih =>
    have := ih (by omega)
    simp only at this ⊢
    rw [show 8 * (n + 1) = 8 * n + 8 by ring, ticks_add, this, ticks_round]
    simp only [hn, dif_pos]
    rw [List.take_add_one, List.foldl_append]
    simp [show n < 12 by omega]

/-- R30: no compression is in progress when a command has ended. -/
theorem compressed_seq (h : Chain) (b : Buffer) (t : BitVec 128) (last : Bool) : (Engine.compressed h b t last).seq = none := by
  unfold Engine.compressed
  rw [show 96 = 8 * (11 : Fin 12).val + 8 by rfl, ticks_add, ticks_rounds, ticks_round]
  rfl

end Sys2Proof.Machine
end

