-- ==== Sys2Proof/Laws/Encoding.lean ====
section
/-!
SUPPORT. The decoder and its table (spec/30_encoding.md R97, R98): a word that matches a row decodes to the command of that
row, and a word that decodes matches the row of its command.
-/

namespace Sys2Proof

/-- The mask of a row holds all of OP, so a word that matches a row has its OP. -/
theorem fieldOp_of_matches {r : OpRow} (hr : r ∈ opRows) {w : Word} (h : r.matches w = true) :
    fieldOp w = fieldOp r.pattern := by
  have e : w &&& r.mask = r.pattern := by simpa [OpRow.matches] using h
  have hm : fieldOp r.mask = 0xF#4 := by fin_cases hr <;> decide
  have hand : fieldOp (w &&& r.mask) = fieldOp w &&& fieldOp r.mask := by
    unfold fieldOp; ext i hi; simp
  rw [← e, hand, hm]
  ext i hi
  interval_cases i <;> simp

/-- R98: "At most one X matches, because the match values differ in OP". -/
theorem row_eq_of_op : ∀ r ∈ opRows, ∀ r' ∈ opRows, fieldOp r.pattern = fieldOp r'.pattern → r = r' := by
  intro r hr r' hr'
  fin_cases hr <;> fin_cases hr' <;> first | (intro _; rfl) | (intro h; exact absurd h (by decide))

/-- R98: a word that matches a row decodes to that row's command. -/
theorem decode_of_matches {r : OpRow} (hr : r ∈ opRows) {w : Word} (h : r.matches w = true) : decode w = .ok (r.build w) := by
  unfold decode
  cases hf : opRows.find? (fun r => r.matches w) with
  | none => exact absurd h (by simpa using List.find?_eq_none.mp hf r hr)
  | some r' =>
    have h' := List.find?_some hf
    have hr' := List.mem_of_find?_eq_some hf
    have : r' = r := row_eq_of_op _ hr' _ hr (by rw [← fieldOp_of_matches hr' h', ← fieldOp_of_matches hr h])
    simp [this]

/-- A word that decodes matches a row of the table, and is read by that row. -/
theorem matches_of_decode {w : Word} {i : Instr} (h : decode w = .ok i) :
    ∃ r ∈ opRows, r.matches w = true ∧ i = r.build w := by
  unfold decode at h
  split at h
  · rename_i r hf
    exact ⟨r, List.mem_of_find?_eq_some hf, (List.find?_some hf : _), by simpa using h.symm⟩
  · cases h

/-- A word that matches no row is rejected. -/
theorem decode_of_no_match {w : Word} (h : ∀ r ∈ opRows, r.matches w = false) : ∃ e, decode w = .error e := by
  unfold decode
  rw [List.find?_eq_none.mpr fun r hr hm => by rw [h r hr] at hm; cases hm]
  exact ⟨_, rfl⟩

/-- The row of a command is a row of the table. -/
theorem row_mem (i : Instr) : i.row ∈ opRows := by cases i <;> simp [Instr.row, opRows]

/-- A command a row builds has that row. -/
theorem row_of_build {r : OpRow} (hr : r ∈ opRows) (w : Word) : (r.build w).row = r := by fin_cases hr <;> rfl

namespace Machine

/-- Accepting a word answers IllegalCommand, or runs the command it decodes to. -/
theorem acceptWord_cases (w : Word) (s : State) :
    (∃ e, decode w = .error e ∧ acceptWord w s = s.raise .illegalCommand) ∨
    (∃ i, decode w = .ok i ∧ acceptWord w s = exec i s) := by
  unfold acceptWord
  cases decode w with
  | ok i => exact .inr ⟨i, rfl, rfl⟩
  | error e => exact .inl ⟨e, rfl, rfl⟩

end Machine
end Sys2Proof
end

