-- ==== Sys2Proof/Laws/Lanes.lean ====
section
/-!
SUPPORT. Lanes and their 64-bit values (spec/00_scope.md R7), reading a lane after writing one (42_mixing.md R185), and
what one G call leaves in each lane (R182).
-/

namespace Sys2Proof.Machine

/-- R7: the value of a lane is `hi · 2^32 + lo`. -/
theorem laneValue_toNat (x : Lane) : (laneValue x).toNat = x.hi.toNat * 2 ^ 32 + x.lo.toNat := by
  simp only [laneValue, BitVec.toNat_append]
  rw [Nat.shiftLeft_eq, Nat.mul_comm, ← Nat.two_pow_add_eq_or_of_lt x.lo.isLt]

/-- A lane is determined by its value. -/
theorem laneValue_inj {x y : Lane} (h : laneValue x = laneValue y) : x = y := by
  have e := congrArg BitVec.toNat h
  rw [laneValue_toNat, laneValue_toNat] at e
  have h1 := x.lo.isLt; have h2 := y.lo.isLt
  cases x; cases y
  simp only [Lane.mk.injEq] at *
  exact ⟨BitVec.eq_of_toNat_eq (by omega), BitVec.eq_of_toNat_eq (by omega)⟩

/-- R7, R185: a lane written is the lane read back, and the other lanes are unchanged. -/
theorem laneAt_setLane (w : Vector Half 32) (i j : Fin 16) (x : Lane) :
    laneAt (setLane w i x) j = if i = j then x else laneAt w j := by
  unfold laneAt setLane
  by_cases h : i = j
  · subst h; cases x; simp
  · have : i.val ≠ j.val := fun e => h (Fin.ext e)
    rw [if_neg h]
    simp only [Vector.getElem_set, Lane.mk.injEq]
    constructor
    · rw [if_neg (by omega), if_neg (by omega)]
    · rw [if_neg (by omega), if_neg (by omega)]

/-- A 32-word array is determined by its 16 lanes. -/
theorem ext_of_lanes {v w : Vector Half 32} (h : ∀ j : Fin 16, laneAt v j = laneAt w j) : v = w := by
  ext1 i hi
  have := h ⟨i / 2, by omega⟩
  simp only [laneAt, Lane.mk.injEq] at this
  rcases Nat.mod_two_eq_zero_or_one i with e | e
  · have e2 : 2 * (i / 2) = i := by omega
    simpa [e2] using this.1
  · have e2 : 2 * (i / 2) + 1 = i := by omega
    simpa [e2] using this.2

/-- R182: the four lanes one G call leaves, from the four it reads. -/
def gLanes (a b c d x y : Lane) : Lane × Lane × Lane × Lane :=
  let a1 := add64 (add64 a b) x
  let d1 := rotr64 (xor64 d a1) 32
  let c1 := add64 c d1
  let b1 := rotr64 (xor64 b c1) 24
  let a2 := add64 (add64 a1 b1) y
  let d2 := rotr64 (xor64 d1 a2) 16
  let c2 := add64 c1 d2
  (a2, rotr64 (xor64 b1 c2) 63, c2, d2)

/-- R182: every lane after a G call on four distinct lanes; it writes those four only. -/
theorem laneAt_mixG {a b c d : Fin 16} (hn : [a, b, c, d].Nodup) (x y : Lane) (v : Working) (j : Fin 16) :
    laneAt (mixG a b c d x y v) j =
      let g := gLanes (laneAt v a) (laneAt v b) (laneAt v c) (laneAt v d) x y
      if j = a then g.1 else if j = b then g.2.1 else if j = c then g.2.2.1 else if j = d then g.2.2.2 else laneAt v j := by
  simp only [List.nodup_cons, List.mem_cons, List.not_mem_nil, or_false, not_or, not_false_eq_true, List.nodup_nil,
    and_true] at hn
  obtain ⟨⟨hab, hac, had⟩, ⟨hbc, hbd⟩, hcd⟩ := hn
  have hs := And.intro (Ne.symm hab) (And.intro (Ne.symm hac) (And.intro (Ne.symm had) (And.intro (Ne.symm hbc)
    (And.intro (Ne.symm hbd) (Ne.symm hcd)))))
  simp only [mixG, laneAt_setLane, gLanes]
  by_cases h1 : j = a
  · subst h1; simp [hab, hac, had, hbc, hbd, hcd, hs]
  by_cases h2 : j = b
  · subst h2; simp [hab, hac, had, hbc, hbd, hcd, hs]
  by_cases h3 : j = c
  · subst h3; simp [hab, hac, had, hbc, hbd, hcd, hs]
  by_cases h4 : j = d
  · subst h4; simp [hab, hac, had, hbc, hbd, hcd, hs]
  simp [h1, h2, h3, h4, Ne.symm h1, Ne.symm h2, Ne.symm h3, Ne.symm h4]

/-- R183: the four lanes of each G call are distinct. -/
theorem quadruple_nodup :
    ∀ i : Fin 8, [quadruple[i.val].1, quadruple[i.val].2.1, quadruple[i.val].2.2.1, quadruple[i.val].2.2.2].Nodup := by
  decide

end Sys2Proof.Machine
end

