-- ==== Sys2Proof/Laws/PerInstr.lean ====
section
/-!
SUPPORT. Statements about every constructor of Instr, one lemma each. RowMatch: the word a command encodes to is the command
its row's match and mask select (spec/30_encoding.md R97), so every reserved bit of it is 0 (R99).
-/

namespace Sys2Proof.Laws.RowMatch

/-- R97: `(w & mask_X) = match_X` of the encoded word. -/
def Statement (i : Instr) : Prop := encode i &&& i.row.mask = i.row.pattern

theorem init (ctx : Ctx) (kp : Bool) (kk nn : Byte) : Statement (.init ctx kp kk nn) := by
  simp only [Statement, encode, Instr.row, Instr.operandBits, rowInit]
  apply BitVec.eq_of_getLsbD_eq; intro j hj; interval_cases j <;> simp

theorem keyb (ctx : Ctx) (data : Byte) : Statement (.keyb ctx data) := by
  simp only [Statement, encode, Instr.row, Instr.operandBits, rowKeyb]
  apply BitVec.eq_of_getLsbD_eq; intro j hj; interval_cases j <;> simp

theorem updb (ctx : Ctx) (data : Byte) : Statement (.updb ctx data) := by
  simp only [Statement, encode, Instr.row, Instr.operandBits, rowUpdb]
  apply BitVec.eq_of_getLsbD_eq; intro j hj; interval_cases j <;> simp

theorem final (ctx : Ctx) : Statement (.final ctx) := by
  simp only [Statement, encode, Instr.row, Instr.operandBits, rowFinal]
  apply BitVec.eq_of_getLsbD_eq; intro j hj; interval_cases j <;> simp

theorem rddig (ctx : Ctx) (idx : Byte) : Statement (.rddig ctx idx) := by
  simp only [Statement, encode, Instr.row, Instr.operandBits, rowRddig]
  apply BitVec.eq_of_getLsbD_eq; intro j hj; interval_cases j <;> simp

theorem rdstat (ctx : Ctx) : Statement (.rdstat ctx) := by
  simp only [Statement, encode, Instr.row, Instr.operandBits, rowRdstat]
  apply BitVec.eq_of_getLsbD_eq; intro j hj; interval_cases j <;> simp

theorem rdcnt (ctx : Ctx) (idx : Byte) : Statement (.rdcnt ctx idx) := by
  simp only [Statement, encode, Instr.row, Instr.operandBits, rowRdcnt]
  apply BitVec.eq_of_getLsbD_eq; intro j hj; interval_cases j <;> simp

end Sys2Proof.Laws.RowMatch
end

