-- ==== Sys2Proof/Laws/Runs.lean ====
section
/-!
SUPPORT. Runs of commands (spec/70_reset_and_hazards.md R259) and steps of the port (30_encoding.md R102, R103), taken apart.
-/

namespace Sys2Proof.Machine

/-- The first command of a run, taken and its response delivered. -/
theorem runCommands_cons {i : Instr} {is : List Instr} {s s' : State} (h : exec i s = .next s') :
    runCommands (i :: is) s = runCommands is s'.deliver := by simp only [runCommands, h]

/-- A run that ends in a next state began with a command that did. -/
theorem exec_of_runCommands {i : Instr} {is : List Instr} {s t : State} (h : runCommands (i :: is) s = .next t) :
    ∃ u, exec i s = .next u ∧ runCommands is u.deliver = .next t := by
  unfold runCommands at h
  cases he : exec i s with
  | next u => rw [he] at h; exact ⟨u, rfl, h⟩
  | fault f => rw [he] at h; cases h
  | refused r => rw [he] at h; cases h

/-- A run is the run of its second part from where the first part ends. -/
theorem runCommands_append (is js : List Instr) {s u : State} (h : runCommands is s = .next u) :
    runCommands (is ++ js) s = runCommands js u := by
  induction is generalizing s with
  | nil => cases h; rfl
  | cons i is ih =>
    obtain ⟨v, hv, h'⟩ := exec_of_runCommands h
    rw [List.cons_append, runCommands_cons hv, ih h']

/-- R100: a command that ends in a next state has answered. -/
theorem exec_answers {i : Instr} {s t : State} (h : exec i s = .next t) : ∃ r, t.rsp = some r := by
  rcases exec_next h with ⟨_, _, rfl⟩ | ⟨_, _, _, _, rfl⟩ | ⟨_, _, _, _, _, rfl⟩ <;> exact ⟨_, rfl⟩

/-- Delivery leaves the slots. -/
@[simp] theorem deliver_slots (s : State) : s.deliver.slots = s.slots := by unfold State.deliver; split <;> rfl

/-- R102: the pending response goes to the host. -/
theorem deliver_of_rsp {s : State} {r : Response} (h : s.rsp = some r) :
    s.deliver = { s with rsp := none, delivered := s.delivered ++ [r] } := by simp only [State.deliver, h]

/-- The event at the head of the input is the next one. -/
theorem nextEvent_of_input {s : State} {p : PortIn} {rest : List PortIn} (h : s.input = p :: rest) :
    s.nextEvent = (p, { s with input := rest }) := by simp only [State.nextEvent, h]

/-- Everything one event can do. -/
theorem portStep_cases (p : PortIn) (s : State) :
    portStep p s = .next s.onReset ∨ portStep p s = .next s.deliver ∨ portStep p s = .next s ∨
    portStep p s = acceptWord p.cmdWord s := by
  unfold portStep; split_ifs <;> simp

/-- One step of a run of the machine. -/
theorem run_succ_of_step (M : Host.Core) {n : Nat} {s s' : M.State} (h : M.step s = .next s') :
    M.run (n + 1) s = M.run n s' := by simp only [Host.Core.run, h]

end Sys2Proof.Machine
end

