-- ==== Sys2Proof/Tests/Slice0.lean ====
section
/-!
SUPPORT. The model's own tests: expected values come from spec/ (the rules' examples and 95_test_vectors.md), and a witness for
the hypotheses of each statement that has some.
-/

open Sys2Proof Sys2Proof.Machine Sys2Proof.Claims

namespace Sys2Proof.Tests

set_option Elab.async false

/-- A core of two slots whose slot 0 is k. -/
def core2 (k : Slot) : State := { State.resetFor 2 with slots := [k, Slot.reset] }

/-- The next state of an outcome. -/
def after : Result → Option State
  | .next s => some s
  | .fault _ => none
  | .refused _ => none

/-- The response an outcome offers. -/
def answer (r : Result) : Option Response := (after r).bind State.rsp

/-- Slot 0 of the next state. -/
def slot0 (r : Result) : Option Slot := (after r).bind fun s => s.slots[0]?

/-- The decoder's answer where it gives a command. -/
def decoded (w : Word) : Option Instr :=
  match decode w with
  | .ok i => some i
  | .error _ => none

/-- A slot after INIT with NN = 64 and no key. -/
def fresh : Slot := freshSlot false 0 64

/-- A slot that still waits for its third and last key byte. -/
def keying : Slot := { freshSlot true 3 32 with c := 2 }

/-- A slot with a full buffer, the bytes 00 to 7F. -/
def full : Slot := { fresh with b := Vector.ofFn fun i => BitVec.ofNat 8 i.val, c := 128 }

/-- A slot that holds the message "abc". -/
def abc : Slot := { fresh with b := Vector.ofFn fun i => if i.val < 3 then BitVec.ofNat 8 (0x61 + i.val) else 0, c := 3 }

/-- A slot in DONE whose chaining state begins as V-C2's result. -/
def done : Slot := { fresh with st := .done, c := 128, t := 3, h := (Vector.replicate 16 0).set 0 0x3FA580BA#32 }

/-! ### Well-formedness: an ill-formed line for each check, refused -/

theorem test_wf_ctx : (AsmLine.final 16).wellFormed = false ∧ (AsmLine.final 15).wellFormed = true := by decide
theorem test_wf_init_nn : (AsmLine.init 0 256 none).wellFormed = false ∧ (AsmLine.init 0 65 none).wellFormed = true := by decide
theorem test_wf_init_key : (AsmLine.init 0 64 (some 256)).wellFormed = false := by decide
theorem test_wf_keyb : (AsmLine.keyb 16 0).wellFormed = false ∧ (AsmLine.keyb 0 256).wellFormed = false := by decide
theorem test_wf_updb : (AsmLine.updb 16 0).wellFormed = false ∧ (AsmLine.updb 0 256).wellFormed = false := by decide
theorem test_wf_rddig : (AsmLine.rddig 16 0).wellFormed = false ∧ (AsmLine.rddig 0 256).wellFormed = false := by decide
theorem test_wf_rdstat : (AsmLine.rdstat 16).wellFormed = false := by decide
theorem test_wf_rdcnt : (AsmLine.rdcnt 16 0).wellFormed = false ∧ (AsmLine.rdcnt 0 256).wellFormed = false := by decide
theorem test_wf_rawWord : (AsmLine.rawWord (2 ^ 32)).wellFormed = false := by decide
theorem test_wf_update : (AsmLine.update 0 [1, 256]).wellFormed = false ∧ (AsmLine.update 16 []).wellFormed = false := by decide
theorem test_wf_hash_key_byte : (AsmLine.hash 0 64 (some [256]) []).wellFormed = false := by decide
theorem test_wf_hash_key_length : (AsmLine.hash 0 64 (some (List.replicate 256 0)) []).wellFormed = false := by decide +kernel
theorem test_wf_hash_nn : (AsmLine.hash 0 256 none []).wellFormed = false := by decide
theorem test_wf_hash_bytes : (AsmLine.hash 0 64 none [256]).wellFormed = false := by decide
theorem test_wf_key : (AsmLine.key 0 [256]).wellFormed = false := by decide
theorem test_wf_digest : (AsmLine.digest 0 256).wellFormed = false ∧ (AsmLine.digest 16 1).wellFormed = false := by decide
theorem test_ill_formed_line_is_an_error : assemble (.init 0 256 none) = none := by decide

/-! ### Decoding: a word written out bit by bit from the format of each command (R92 to R95) -/

theorem test_decode_init : decoded 0b0001_0001_0000000_1_00000011_00100000#32 = some (.init 1 true 3 32) := by decide
theorem test_decode_keyb : decoded 0b0010_0001_0000000000000000_01101011#32 = some (.keyb 1 0x6B) := by decide
theorem test_decode_updb : decoded 0b0011_1111_0000000000000000_10000000#32 = some (.updb 15 0x80) := by decide
theorem test_decode_final : decoded 0b0100_0001_000000000000000000000000#32 = some (.final 1) := by decide
theorem test_decode_rddig : decoded 0b0101_0000_0000000000000000_11001000#32 = some (.rddig 0 200) := by decide
theorem test_decode_rdstat : decoded 0b0110_0010_000000000000000000000000#32 = some (.rdstat 2) := by decide
theorem test_decode_rdcnt : decoded 0b0111_0001_0000000000000000_00000011#32 = some (.rdcnt 1 3) := by decide

/-- R99: the reserved opcodes and each reserved field of each format. -/
theorem test_decode_reserved :
    [0x00000000#32, 0x80000000, 0xF0000000, 0x10020040, 0x10800040, 0x20000100, 0x30800000, 0x40000001, 0x50010000,
      0x60800000, 0x70000100].map decoded = List.replicate 11 none := by decide

/-- R97: no two rows of the table overlap, by their opcodes. -/
theorem test_rows_disjoint : opRows.Pairwise fun r r' => fieldOp r.pattern ≠ fieldOp r'.pattern := by decide

theorem test_decodeTableWord :
    decodeTableWord 32 0x11010320 = some (.init 1 true 3 32) ∧ decodeTableWord 32 0x80000000 = none ∧
    decodeTableWord 32 0x60000000 = some (.rdstat 0) := by decide

/-! ### The assembler: lines of text from R110 to R114 and the programs of 95_test_vectors.md -/

theorem test_text_init : assembleText ['I', 'N', 'I', 'T', ' ', '1', ',', ' ', '3', '2', ',', ' ', 'k', 'e', 'y', '=', '3']
    = some [0x11010320#32] := by decide +kernel
theorem test_text_keyb : assembleText ['K', 'E', 'Y', 'B', ' ', '1', ',', ' ', '0', 'x', '6', 'B'] = some [0x2100006B#32] := by
  decide +kernel
theorem test_text_word : assembleText ['.', 'w', 'o', 'r', 'd', ' ', '0', 'x', '8', '0', '0', '0', '0', '0', '0', '0']
    = some [0x80000000#32] := by decide +kernel
theorem test_text_update : assembleText ['U', 'P', 'D', 'A', 'T', 'E', ' ', '0', ',', ' ', '9', '7', ' ', '9', '8']
    = some [0x30000061#32, 0x30000062#32] := by decide +kernel

/-- The model's choice for a key of no bytes (notes/assumptions/11.md): no text for it, and an INIT the core refuses (V-S4). -/
theorem test_hash_empty_key :
    assembleText ['H', 'A', 'S', 'H', ' ', '0', ',', '6', '4', ',', '7', ',', 'k', 'e', 'y', '='] = none ∧
    (assemble (.hash 0 0 (some []) [])) = some [0x10010000#32, 0x40000000] := by decide +kernel

/-- The model's choice for a line that begins with a blank (notes/assumptions/11.md): no line. -/
theorem test_leading_blank : assembleText [' ', 'F', 'I', 'N', 'A', 'L', ' ', '0'] = none ∧
    assembleText ['F', 'I', 'N', 'A', 'L', ' ', ' ', '0', ' '] = some [0x40000000#32] := by decide +kernel

/-- R112: the words of HASH with a key: INIT, KEYB, UPDB, FINAL, RDDIG. -/
theorem test_hash_expands : assemble (.hash 0 2 (some [1]) [0x61]) =
    some [0x10010102#32, 0x20000001, 0x30000061, 0x40000000, 0x50000000, 0x50000001] := by decide

/-! ### Word-pair arithmetic and mixing -/

/-- V-A2, V-A3, V-A6, V-A8. -/
theorem test_add64 :
    laneValue (add64 (laneOfValue 0x00000000FFFFFFFF) (laneOfValue 1)) = 0x0000000100000000 ∧
    laneValue (add64 (laneOfValue 0xFFFFFFFFFFFFFFFF) (laneOfValue 1)) = 0 ∧
    laneValue (add64 (laneOfValue 0x00000000FFFFFFFF) (laneOfValue 0x00000000FFFFFFFF)) = 0x00000001FFFFFFFE ∧
    laneValue (add64 (laneOfValue 0xFFFFFFFFFFFFFFFF) (laneOfValue 0xFFFFFFFFFFFFFFFF)) = 0xFFFFFFFFFFFFFFFE := by decide

/-- V-X64-1, V-X64-3. -/
theorem test_xor64_not64 :
    laneValue (xor64 (laneOfValue 4) (laneOfValue 3)) = 7 ∧
    laneValue (not64 (laneOfValue 0x1F83D9ABFB41BD6B)) = 0xE07C265404BE4294 := by decide

/-- V-R8. -/
theorem test_rotr64 :
    laneValue (rotr64 (laneOfValue 0x00000000FFFFFFFF) 32) = 0xFFFFFFFF00000000 ∧
    laneValue (rotr64 (laneOfValue 0x00000000FFFFFFFF) 24) = 0xFFFFFF00000000FF ∧
    laneValue (rotr64 (laneOfValue 0x00000000FFFFFFFF) 16) = 0xFFFF00000000FFFF ∧
    laneValue (rotr64 (laneOfValue 0x00000000FFFFFFFF) 63) = 0x00000001FFFFFFFE := by decide

/-- V-G3, in lanes 0, 4, 8 and 12. -/
theorem test_mixG :
    let v : Working := setLane (setLane (setLane (setLane (Vector.replicate 32 0) 0 ⟨1, 0⟩) 4 ⟨2, 0⟩) 8 ⟨3, 0⟩) 12 ⟨4, 0⟩
    [0, 4, 8, 12, 1].map (fun i => laneValue (laneAt (mixG 0 4 8 12 ⟨5, 0⟩ ⟨6, 0⟩ v) i)) =
      [0x0000010000000C0E, 0x181C021802181806, 0x0C0E000C010C0003, 0x0C0E0000010C0000, 0] := by decide +kernel

/-- R181: each row of SIGMA is a permutation of 0..15. -/
theorem test_sigma_rows : ∀ r : Fin 12, (sigma[r.val]).toList.Nodup := by decide +kernel

/-- V-C5: the counter 2^64 + 128 seeds lanes 12 and 13. -/
theorem test_seed_counter :
    [12, 13, 14, 15].map (fun i => laneValue (laneAt (seedWorking fresh.h (2 ^ 64 + 128) false) i)) =
      [0x510E527FADE68251, 0x9B05688C2B3E6C1E, 0x1F83D9ABFB41BD6B, 0x5BE0CD19137E2179] := by decide +kernel

/-- V-C1: the final flag complements lane 14 alone. -/
theorem test_seed_final :
    [12, 13, 14, 15].map (fun i => laneValue (laneAt (seedWorking fresh.h 0 true) i)) =
      [0x510E527FADE682D1, 0x9B05688C2B3E6C1F, 0xE07C265404BE4294, 0x5BE0CD19137E2179] := by decide +kernel

/-! ### The commands, one step each -/

/-- V-I4 and the example of R120. -/
theorem test_init :
    (slot0 (exec (.init 0 true 3 64) (core2 fresh))).map (fun k => laneValue ⟨k.h[0], k.h[1]⟩) = some 0x6A09E667F2BDCA48 ∧
    (slot0 (exec (.init 0 false 0 64) (core2 done))).map Slot.status = some 0x00400002 := by decide +kernel

/-- V-S4: the four rejected INITs answer 1/00000000 and leave the context of the slot. -/
theorem test_init_rejected :
    [Instr.init 0 false 0 0, .init 0 false 0 65, .init 0 true 0 64, .init 0 true 65 64].map
      (fun i => (answer (exec i (core2 abc)), (slot0 (exec i (core2 abc))).map Slot.status)) =
      List.replicate 4 (some ⟨.invalidParameter, 0⟩, some 0x00400302#32) := by decide +kernel

/-- R121's example: the third of three key bytes makes STATUS read 0x03A08002. -/
theorem test_keyb_last : (slot0 (exec (.keyb 0 0x79) (core2 keying))).map (fun k => (k.status, k.b[2], k.t)) =
    some (0x03A08002#32, 0x79#8, 0) := by decide +kernel

/-- R121: a key byte that is not the last stays in KEYING. -/
theorem test_keyb_first : (slot0 (exec (.keyb 0 0x6B) (core2 { keying with c := 0 }))).map (fun k => (k.st, k.c, k.b[0])) =
    some (.keying, 1, 0x6B#8) := by decide +kernel

/-- R122: the 128th byte fills the buffer and compresses nothing. -/
theorem test_updb_fills : (slot0 (exec (.updb 0 0x7F) (core2 { full with c := 127 }))).map (fun k => (k.c, k.t, k.h)) =
    some (128#8, 0, fresh.h) := by decide +kernel

/-- R123: FINAL on "abc" in a buffer whose rest is not zero: the counter is 3, the rest is zeroed, `c` reads 128. -/
theorem test_final : (slot0 (exec (.final 0) (core2 { full with c := 3 }))).map (fun k => (k.status, k.t, k.b[2], k.b[3], k.b[127])) =
    some (0x00408003#32, 3, 2#8, 0#8, 0#8) := by decide +kernel

/-- R224: FINAL refuses a counter that would pass 2^128 - 1. -/
theorem test_final_counterRange : answer (exec (.final 0) (core2 { full with t := BitVec.allOnes 128 })) =
    some ⟨.counterRange, 0⟩ := by decide +kernel

/-- R124's example: byte 0 of the digest of "abc" is BA; byte 3 is 3F. -/
theorem test_rddig : answer (exec (.rddig 0 0) (core2 done)) = some ⟨.ok, 0xBA⟩ ∧
    answer (exec (.rddig 0 3) (core2 done)) = some ⟨.ok, 0x3F⟩ := by decide +kernel

/-- R225's example, and IDX = NN in DONE. -/
theorem test_rddig_rejected : answer (exec (.rddig 0 200) (core2 Slot.reset)) = some ⟨.invalidState, 0⟩ ∧
    answer (exec (.rddig 0 64) (core2 done)) = some ⟨.invalidParameter, 0⟩ := by decide +kernel

/-- R125's example, and IDLE. -/
theorem test_rdstat : answer (exec (.rdstat 0) (core2 abc)) = some ⟨.ok, 0x00400302⟩ ∧
    answer (exec (.rdstat 1) (core2 abc)) = some ⟨.ok, 0⟩ := by decide +kernel

/-- R126's example, slice 0 of the counter 131, and slice 1. -/
theorem test_rdcnt : answer (exec (.rdcnt 0 0) (core2 { done with t := 131 })) = some ⟨.ok, 0x83⟩ ∧
    answer (exec (.rdcnt 0 1) (core2 { done with t := 2 ^ 32 + 128 })) = some ⟨.ok, 1⟩ := by decide +kernel

/-- R221 a: slot 2 of two does not exist. -/
theorem test_no_slot : answer (exec (.rdstat 2) (core2 abc)) = some ⟨.invalidParameter, 0⟩ := by decide +kernel

/-! ### The step -/

/-- A word of each row, and the word 0, run as the first command after reset. -/
theorem test_step_from_reset :
    ([0x10000040, 0x20000000, 0x30000061, 0x40000000, 0x50000000, 0x60000000, 0x70000000, 0].map
      fun w => answer (step (State.reset.withFetchWord 32 w))) =
    [some ⟨.ok, 0⟩, some ⟨.invalidState, 0⟩, some ⟨.invalidState, 0⟩, some ⟨.invalidState, 0⟩, some ⟨.invalidState, 0⟩,
      some ⟨.ok, 0⟩, some ⟨.invalidState, 0⟩, some ⟨.illegalCommand, 0⟩] := by decide +kernel

/-- R103: a pending response holds the next command back, and is delivered when the host takes it. -/
theorem test_step_pending :
    (after (step { core2 abc with rsp := some ⟨.ok, 7⟩, input := [PortIn.offer 0x60000000] })).map
      (fun s => (s.rsp, s.delivered)) = some (some ⟨.ok, 7⟩, []) ∧
    (after (step { core2 abc with rsp := some ⟨.ok, 7⟩, input := [PortIn.take] })).map (fun s => (s.rsp, s.delivered)) =
      some (none, [⟨.ok, 7⟩]) := by decide +kernel

/-- R220, R102: the code of each error on rsp_err, with rsp_data beside it. -/
theorem test_rsp_err : [ErrorCode.ok, .invalidParameter, .invalidState, .illegalCommand, .counterRange].map
      (fun e => let s : State := { core2 abc with rsp := some ⟨e, 7⟩ }; (s.rspErr, s.rspData)) =
    [(some 0, some 7), (some 1, some 7), (some 2, some 7), (some 3, some 7), (some 4, some 7)] := by decide

/-- R250: reset discards the context and the undelivered response. -/
theorem test_step_reset :
    (after (step { core2 abc with rsp := some ⟨.ok, 7⟩, input := [PortIn.reset] })).map
      (fun s => (s.slots.map Slot.st, s.rsp, s.delivered)) = some ([.idle, .idle], none, []) := by decide +kernel

/-! ### Witnesses: a concrete case that meets the hypotheses of each statement, one for each clause -/

/-- Two cores a host cannot tell apart, for the claims that compare two. -/
def core2' : State := { core2 abc with slots := [abc, { Slot.reset with c := 5 }], engine := { Engine.reset with m := Vector.replicate 32 1 } }

theorem witness_EncodeOfDecode : decode 0x41000000#32 = .ok (.final 1) := by decide

theorem witness_WordIsCommandIffRowMatches :
    (0x1F01FFFF#32 &&& 0xF0FE0000#32 = 0x10000000#32 ∧ 0x2F0000FF#32 &&& 0xF0FFFF00#32 = 0x20000000#32 ∧
      0x3F0000FF#32 &&& 0xF0FFFF00#32 = 0x30000000#32 ∧ 0x4F000000#32 &&& 0xF0FFFFFF#32 = 0x40000000#32 ∧
      0x5F0000FF#32 &&& 0xF0FFFF00#32 = 0x50000000#32 ∧ 0x6F000000#32 &&& 0xF0FFFFFF#32 = 0x60000000#32 ∧
      0x7F0000FF#32 &&& 0xF0FFFF00#32 = 0x70000000#32) ∧
    ∀ r ∈ opRows, 0x00000000#32 &&& r.mask ≠ r.pattern := by decide

theorem witness_IllegalWordsRejected :
    illegal 0x00000000 ∧ illegal 0x80000000 ∧ illegal 0xFFFFFFFF ∧ illegal 0x10020000 ∧ illegal 0x70800000 ∧
    illegal 0x40000001 ∧ illegal 0x60800000 ∧ ¬ illegal 0x1F01FFFF ∧ ¬ illegal 0x4F000000 ∧ ¬ illegal 0x7F0000FF :=
  ⟨.inl (by decide), .inr (.inl (by decide)), .inr (.inl (by decide)), .inr (.inr (.inl (by decide))),
    .inr (.inr (.inr (.inl (by decide)))), .inr (.inr (.inr (.inr (by decide)))), .inr (.inr (.inr (.inr (by decide)))),
    fun h => by rcases h with h | h | h | h | h <;> revert h <;> decide,
    fun h => by rcases h with h | h | h | h | h <;> revert h <;> decide,
    fun h => by rcases h with h | h | h | h | h <;> revert h <;> decide⟩

/-- Each kind of bound of a line at its last good value and its first bad one. -/
theorem witness_AssembledLinesDecode :
    ((15 ≤ 15 ∧ 255 ≤ 255) ∧ ¬ (16 ≤ 15 ∧ 0 ≤ 255) ∧ ¬ (0 ≤ 15 ∧ 256 ≤ 255)) ∧
    ((15 ≤ 15 ∧ 255 ≤ 255 ∧ 255 ≤ 255) ∧ ¬ (15 ≤ 15 ∧ 255 ≤ 255 ∧ 256 ≤ 255)) ∧
    ((15 ≤ 15 ∧ ∀ x ∈ [0, 255], x ≤ 255) ∧ ¬ (15 ≤ 15 ∧ ∀ x ∈ [256], x ≤ 255)) ∧
    (((List.replicate 255 7).length ≤ 255 ∧ ∀ x ∈ List.replicate 255 7, x ≤ 255) ∧ ¬ (List.replicate 256 7).length ≤ 255) ∧
    (2 ^ 32 - 1 < 2 ^ 32 ∧ ¬ 2 ^ 32 < 2 ^ 32) := by decide +kernel

theorem witness_HalvesAgreeWithNative64 : (1 ≤ 1 ∧ 1 ≤ 63) ∧ (1 ≤ 63 ∧ 63 ≤ 63) := by decide

theorem witness_MixGComputesEightSteps : ([0, 4, 8, 12] : List (Fin 16)).Nodup ∧ (1 : Fin 16) ∉ ([0, 4, 8, 12] : List (Fin 16)) := by
  decide

theorem witness_CallsOfAHalfRoundCommute :
    ([3, 2, 1, 0] : List (Fin 8)).Perm [0, 1, 2, 3] ∧ ([7, 6, 5, 4] : List (Fin 8)).Perm [4, 5, 6, 7] := by decide

theorem witness_SeedPlacesCounterAndFlag : (BitVec.ofNat 128 (2 ^ 64 - 1)).toNat < 2 ^ 64 := by decide

theorem witness_CounterPlacementBelow2Pow53 : (BitVec.ofNat 128 (2 ^ 53 - 1)).toNat < 2 ^ 53 := by decide

theorem witness_InitCreatesContext :
    (core2 abc).slots.length ≤ (2 : Ctx).toNat ∧ (1 : Ctx).toNat < (core2 abc).slots.length ∧
    (0 : Byte).toNat < 1 ∧ 64 < (65 : Byte).toNat ∧ 1 ≤ (1 : Byte).toNat ∧ (64 : Byte).toNat ≤ 64 ∧ (0 : Byte).toNat = 0 ∧
    (1 : Byte).toNat ≠ 0 ∧ fieldOp 0x10020000#32 = 1 ∧ (0x10020000#32).extractLsb' 17 7 ≠ 0 := by decide

theorem witness_KeybAbsorbsKeyByte :
    (core2 keying).slots.length ≤ (2 : Ctx).toNat ∧ (core2 keying).slots[0]? = some keying ∧ abc.st ≠ .keying ∧
    keying.st = .keying ∧ keying.c.toNat < 128 ∧ keying.c.toNat + 1 = keying.kk.toNat ∧
    ({ keying with c := 0 } : Slot).c.toNat + 1 ≠ ({ keying with c := 0 } : Slot).kk.toNat ∧
    fieldOp 0x20000100#32 = 2 ∧ (0x20000100#32).extractLsb' 8 16 ≠ 0 := ⟨by decide, rfl, by decide +kernel⟩

theorem witness_UpdbAbsorbsMessageByte :
    (core2 full).slots.length ≤ (2 : Ctx).toNat ∧ (core2 full).slots[0]? = some full ∧ done.st ≠ .absorb ∧
    full.st = .absorb ∧ full.c.toNat = 128 ∧ full.t.toNat + 128 ≤ 2 ^ 128 - 1 ∧
    ({ full with c := 127 } : Slot).c.toNat < 128 ∧
    (2 ^ 128 - 1 < ({ full with t := BitVec.ofNat 128 (2 ^ 128 - 128) } : Slot).t.toNat + 128) ∧
    fieldOp 0x30000100#32 = 3 ∧ (0x30000100#32).extractLsb' 8 16 ≠ 0 := ⟨by decide, rfl, by decide +kernel⟩

theorem witness_FinalLatchesDigest :
    (core2 abc).slots.length ≤ (2 : Ctx).toNat ∧ (core2 abc).slots[0]? = some abc ∧ done.st ≠ .absorb ∧ abc.st = .absorb ∧
    abc.t.toNat + abc.c.toNat ≤ 2 ^ 128 - 1 ∧
    (2 ^ 128 - 1 < ({ abc with t := BitVec.ofNat 128 (2 ^ 128 - 3) } : Slot).t.toNat + abc.c.toNat) ∧
    fieldOp 0x40000001#32 = 4 ∧ (0x40000001#32).extractLsb' 0 24 ≠ 0 := ⟨by decide, rfl, by decide +kernel⟩

theorem witness_RddigReadsDigestByte :
    (core2 done).slots.length ≤ (2 : Ctx).toNat ∧ (core2 done).slots[0]? = some done ∧ abc.st ≠ .done ∧ done.st = .done ∧
    done.nn.toNat ≤ (64 : Byte).toNat ∧ done.nn.toNat ≤ 64 ∧ (63 : Byte).toNat < done.nn.toNat ∧
    fieldOp 0x50000100#32 = 5 ∧ (0x50000100#32).extractLsb' 8 16 ≠ 0 := ⟨by decide, rfl, by decide +kernel⟩

theorem witness_RdstatReadsStatus :
    (core2 abc).slots.length ≤ (2 : Ctx).toNat ∧ (core2 abc).slots[0]? = some abc ∧ abc.st ≠ .idle ∧
    (core2 abc).slots[1]? = some Slot.reset ∧ Slot.reset.st = .idle ∧
    fieldOp 0x60000001#32 = 6 ∧ (0x60000001#32).extractLsb' 0 24 ≠ 0 := ⟨by decide, rfl, by decide, rfl, by decide +kernel⟩

theorem witness_RdcntReadsCounterSlice :
    (core2 abc).slots.length ≤ (2 : Ctx).toNat ∧ (core2 abc).slots[0]? = some abc ∧ abc.st ≠ .idle ∧
    (core2 abc).slots[1]? = some Slot.reset ∧ Slot.reset.st = .idle ∧ 3 < (4 : Byte).toNat ∧ (3 : Byte).toNat ≤ 3 ∧
    fieldOp 0x70000100#32 = 7 ∧ (0x70000100#32).extractLsb' 8 16 ≠ 0 := ⟨by decide, rfl, by decide, rfl, by decide +kernel⟩

/-- A command that ends in a next state, and another slot beside it. -/
theorem witness_OtherSlotsUntouched : (∃ t, exec (.keyb 0 5) (core2 keying) = .next t) ∧ 1 ≠ (Instr.keyb 0 5).ctx.toNat :=
  ⟨⟨_, rfl⟩, by decide⟩

theorem witness_CommandReadsOnlyItsSlot : (core2 abc).slots[(Instr.updb 0 5).ctx.toNat]? = core2'.slots[(Instr.updb 0 5).ctx.toNat]? ∧
    ∃ t, exec (.updb 0 5) (core2 abc) = .next t := ⟨rfl, _, rfl⟩

/-- An accepted command that writes its slot, as the frames take it. -/
theorem writes {i : Instr} {s : State} {k k' : Slot} {e : Engine} (hk : s.slots[i.ctx.toNat]? = some k)
    (h : exec i s = .next (({ s with engine := e }.setSlot i.ctx k').respond .ok 0)) :
    ∃ t k', exec i s = .next t ∧ s.slots[i.ctx.toNat]? = some k ∧ t.slots[i.ctx.toNat]? = some k' ∧ t.rsp = some ⟨.ok, 0⟩ :=
  ⟨_, k', h, hk, by simp [(List.getElem?_eq_some_iff.mp hk).1], rfl⟩

/-- An UPDB that compresses, and a KEYB. -/
theorem witness_ByteCommandsFrame :
    (stagedByte (.updb 0 5) = some 5 ∧ (∃ t k', exec (.updb 0 5) (core2 full) = .next t ∧
      (core2 full).slots[(Instr.updb 0 5).ctx.toNat]? = some full ∧ t.slots[(Instr.updb 0 5).ctx.toNat]? = some k' ∧
      t.rsp = some ⟨.ok, 0⟩) ∧ (127 : Nat) ≠ stagingAddress full) ∧
    (stagedByte (.keyb 0 5) = some 5 ∧ (∃ t k', exec (.keyb 0 5) (core2 keying) = .next t ∧
      (core2 keying).slots[(Instr.keyb 0 5).ctx.toNat]? = some keying ∧ t.slots[(Instr.keyb 0 5).ctx.toNat]? = some k' ∧
      t.rsp = some ⟨.ok, 0⟩) ∧ compresses (.keyb 0 5) keying = false) := by
  refine ⟨⟨rfl, writes (k' := full.flush.putByte 5 (by decide)) (e := Engine.compressed full.h full.b (full.t + 128) false) rfl ?_,
    by decide +kernel⟩, rfl, ⟨_, _, rfl, rfl, rfl, rfl⟩, rfl⟩
  simp only [exec, execUpdb]
  rw [withSlot_of_some (k := full) rfl, if_neg (by decide), if_pos (by decide), if_neg (by decide +kernel)]
  rfl

theorem witness_FinalFrame : (∃ t k', exec (.final 0) (core2 abc) = .next t ∧
    (core2 abc).slots[(Instr.final 0).ctx.toNat]? = some abc ∧ t.slots[(Instr.final 0).ctx.toNat]? = some k' ∧
    t.rsp = some ⟨.ok, 0⟩) ∧ 2 < abc.c.toNat ∧ abc.c.toNat ≤ 3 ∧ 127 < 128 := by
  refine ⟨writes (k' := { abc.padded.compress true with st := .done })
    (e := Engine.compressed abc.padded.h abc.padded.b abc.padded.t true) rfl ?_, by decide +kernel⟩
  simp only [exec, execFinal]
  rw [withSlot_of_some (k := abc) rfl, if_neg (by decide), if_neg (by decide +kernel)]
  rfl

theorem witness_ReadsChangeNoState : isRead (.rdcnt 0 3) = true ∧ ∃ t, exec (.rdcnt 0 3) (core2 abc) = .next t := ⟨rfl, _, rfl⟩

theorem witness_ErrorsWriteNothing : ∃ t r, acceptWord 0x80000000#32 (core2 abc) = .next t ∧ t.rsp = some r ∧ r.err ≠ .ok :=
  ⟨_, _, rfl, rfl, by decide⟩

theorem witness_FirstErrorReported : ∃ t, acceptWord 0x500000C8#32 (core2 abc) = .next t := ⟨_, rfl⟩

/-- Each of the three clauses: InvalidState, success, another error. -/
theorem witness_SlotStateMachine :
    (∃ t k' r, exec (.keyb 0 5) (core2 abc) = .next t ∧ (core2 abc).slots[(Instr.keyb 0 5).ctx.toNat]? = some abc ∧
      t.slots[(Instr.keyb 0 5).ctx.toNat]? = some k' ∧ t.rsp = some r ∧ r.err = .invalidState) ∧
    (∃ t k' r, exec (.updb 0 5) (core2 abc) = .next t ∧ (core2 abc).slots[(Instr.updb 0 5).ctx.toNat]? = some abc ∧
      t.slots[(Instr.updb 0 5).ctx.toNat]? = some k' ∧ t.rsp = some r ∧ r.err = .ok) ∧
    (∃ t k' r, exec (.rdcnt 0 4) (core2 abc) = .next t ∧ (core2 abc).slots[(Instr.rdcnt 0 4).ctx.toNat]? = some abc ∧
      t.slots[(Instr.rdcnt 0 4).ctx.toNat]? = some k' ∧ t.rsp = some r ∧ r.err ≠ .ok) :=
  ⟨⟨_, _, _, rfl, rfl, rfl, rfl, rfl⟩, ⟨_, _, _, rfl, rfl, rfl, rfl, rfl⟩, ⟨_, _, _, rfl, rfl, rfl, rfl, by decide⟩⟩

theorem witness_OnlyInitSetsLengths : isInit (.updb 0 5) = false ∧ ∃ t, exec (.updb 0 5) (core2 abc) = .next t := ⟨rfl, _, rfl⟩

theorem witness_OnlyCompressionsChangeChain : isInit (.updb 0 5) = false ∧ ∃ t k', exec (.updb 0 5) (core2 abc) = .next t ∧
    (core2 abc).slots[(Instr.updb 0 5).ctx.toNat]? = some abc ∧ t.slots[(Instr.updb 0 5).ctx.toNat]? = some k' ∧
    compresses (.updb 0 5) abc = false := ⟨rfl, _, _, rfl, rfl, rfl, by decide +kernel⟩

theorem witness_EveryWordOneResponse : (∃ t, acceptWord 0x50000003#32 (core2 done) = .next t) ∧
    decode 0x50000003#32 = .ok (.rddig 0 3) ∧ decode 0x40000000#32 = .ok (.final 0) ∧ isRead (.final 0) = false :=
  ⟨⟨_, rfl⟩, by decide, by decide, rfl⟩

theorem witness_StatusFields : Slot.reset.st = .idle ∧ abc.st ≠ .idle := by decide

theorem witness_CounterSlices : 0 ≤ 3 ∧ 3 ≤ 3 := by decide

theorem witness_StepRunsOfferedCommand :
    let s : State := { core2 abc with input := [PortIn.offer 0x40000000] }
    s.rsp = none ∧ s.input = PortIn.offer 0x40000000 :: [] ∧ (PortIn.offer 0x40000000).rst = false ∧
    (PortIn.offer 0x40000000).cmdValid = true ∧ decode 0x40000000#32 = .ok (.final 0) ∧
    decode (PortIn.offer 0).cmdWord = .error .unassignedOpcode := by decide

theorem witness_OneCommandOutstanding :
    let s : State := { core2 abc with rsp := some ⟨.ok, 7⟩, input := [PortIn.take] }
    s.input = PortIn.take :: [] ∧ PortIn.take.rst = false ∧ s.rsp = some ⟨.ok, 7⟩ ∧ PortIn.take.rspReady = true ∧
    (PortIn.offer 0).rspReady = false ∧ (core2 abc).rsp = none ∧ PortIn.take.cmdValid = false := by decide

theorem witness_ResetIdlesEverySlot :
    ({ core2 abc with input := [PortIn.reset] } : State).input = PortIn.reset :: [] ∧ PortIn.reset.rst = true := by decide

theorem witness_ResetStateWaits : (0 : Ctx).toNat < 1 ∧ (15 : Ctx).toNat < 16 := by decide

theorem witness_ResetMeetsInvariant : (1 ≤ 1 ∧ 1 ≤ 16) ∧ (1 ≤ 16 ∧ 16 ≤ 16) := by decide

/-- A state in the middle of a session meets the invariant, and steps. -/
theorem witness_StepKeepsInvariant : ({ core2 keying with input := [PortIn.offer 0x20000080] } : State).Inv ∧
    ∃ s', step { core2 keying with input := [PortIn.offer 0x20000080] } = .next s' := ⟨by decide +kernel, _, rfl⟩

theorem witness_RunsNeverStop : (core2 keying).Inv := by decide +kernel

theorem witness_EveryWordAnswered : (core2 done).Inv := by decide +kernel

/-- A stop in a state no run reaches, and a command that goes on. -/
theorem witness_StopsAreSpecificationErrors :
    (let k : Slot := { keying with c := 128 }
     (core2 k).slots[(Instr.keyb 0 5).ctx.toNat]? = some k ∧ specificationError (.keyb 0 5) k = some .bufferAddress) ∧
    (let k : Slot := { full with c := 129 }
     (core2 k).slots[(Instr.updb 0 5).ctx.toNat]? = some k ∧ specificationError (.updb 0 5) k = some .bufferAddress) ∧
    (let k : Slot := { done with nn := 65 }
     (core2 k).slots[(Instr.rddig 0 64).ctx.toNat]? = some k ∧ specificationError (.rddig 0 64) k = some .digestIndex) ∧
    (∀ k, (core2 full).slots[(Instr.updb 0 5).ctx.toNat]? = some k → specificationError (.updb 0 5) k = none) :=
  ⟨⟨rfl, by decide +kernel⟩, ⟨rfl, by decide +kernel⟩, ⟨rfl, by decide +kernel⟩, fun k h => by cases h; decide +kernel⟩

/-- Two different machines a host cannot tell apart, one that steps and one that stops. -/
theorem witness_IdleFieldsUnobservable :
    ((core2 abc).SameVisible core2' ∧ core2 abc ≠ core2' ∧ ∃ t, step (core2 abc) = .next t) ∧
    ∃ f, step { core2 { keying with c := 128 } with input := [PortIn.offer 0x20000000] } = .fault f :=
  ⟨⟨⟨.cons (.inl rfl) (.cons (.inr ⟨rfl, rfl⟩) .nil), rfl, rfl, rfl⟩, fun h => absurd (congrArg (fun s => s.engine.m[0]) h) (by decide), _, rfl⟩, _, rfl⟩

/-- The same session with two different keys in the buffer. -/
theorem witness_BufferAndChainConfidential :
    List.Forall₂ Slot.SameButSecret (core2 full).slots (core2 { full with b := Vector.replicate 128 0 }).slots ∧
    ∃ t, acceptWord 0x60000000#32 (core2 full) = .next t :=
  ⟨.cons ⟨rfl, rfl, rfl, rfl, rfl, rfl, fun h => by cases h⟩ (.cons ⟨rfl, rfl, rfl, rfl, rfl, rfl, fun h => by cases h⟩ .nil), _, rfl⟩

theorem witness_PortRunsCommands : (core2 abc).rsp = none ∧
    ∃ t, runCommands [.rdstat 0, .rdcnt 1 0] { core2 abc with input := [] } = .next t := ⟨rfl, _, rfl⟩

theorem witness_InterleavedSessionsIndependent : ∃ t, runCommands [.updb 0 1, .init 1 false 0 64, .updb 1 2, .updb 0 3] (core2 abc) = .next t :=
  ⟨_, rfl⟩

/-- Two pieces, an empty one between, and a command on another slot and a read of the same slot in the gaps. -/
theorem witness_ChunkingIrrelevant :
    let pieces : List (List Byte × List Instr) := [([1, 2], [.init 1 false 0 64, .updb 1 9]), ([], [.rdstat 0]), ([3], [])]
    (∀ p ∈ pieces, ∀ i ∈ p.2, i.ctx ≠ 0 ∨ isRead i = true) ∧ (core2 abc).slots[(0 : Ctx).toNat]? = core2'.slots[(0 : Ctx).toNat]? ∧
    (∃ t, runCommands (pieces.flatMap fun p => updateCmds 0 p.1 ++ p.2) (core2 abc) = .next t) ∧
    (∀ j ∈ [Instr.rdcnt 0 0, .rdcnt 0 1], j.ctx = 0) ∧ ∃ u, runCommands [.rdcnt 0 0, .rdcnt 0 1] (core2 abc) = .next u :=
  ⟨by decide, rfl, ⟨_, rfl⟩, by decide, _, rfl⟩

theorem witness_KeyPathState : (1 : Ctx).toNat < (core2 abc).slots.length ∧ 1 ≤ 64 ∧ 64 ≤ 64 ∧
    1 ≤ ([0x6B] : List Byte).length ∧ (List.replicate 64 (0xFF : Byte)).length ≤ 64 := by decide

theorem witness_MessageIsFoldedBlockByBlock : (1 : Ctx).toNat < (core2 abc).slots.length ∧ 1 ≤ 1 ∧ 1 ≤ 64 ∧
    (∀ ks : List Byte, some (List.replicate 64 0xFF) = some ks → 1 ≤ ks.length ∧ ks.length ≤ 64) ∧
    (Native.keyBlock (some (List.replicate 64 0xFF)) ++ [0x61]).length ≤ 2 ^ 128 - 1 :=
  ⟨by decide, by decide, by decide, fun ks h => (by cases h; decide), by decide +kernel⟩

theorem witness_HashAnswersDigest : (0 : Ctx).toNat < (core2 done).slots.length ∧ 1 ≤ 64 ∧ 64 ≤ 64 ∧
    (∀ ks : List Byte, none = some ks → 1 ≤ ks.length ∧ ks.length ≤ 64) ∧
    (Native.keyBlock none ++ [0x61, 0x62, 0x63]).length ≤ 2 ^ 128 - 1 :=
  ⟨by decide, by decide, by decide, fun _ h => (by cases h), by decide +kernel⟩

/-- A data command and a read of an IDLE slot, and a step that leaves it IDLE beside an INIT of another slot. -/
theorem witness_IdleSlotWaitsForInit :
    (isInit (.keyb 1 5) = false ∧ isInit (.rdstat 1) = false ∧ (core2 abc).slots[1]? = some Slot.reset ∧ Slot.reset.st = .idle ∧
      ∀ ctx, Instr.keyb 1 5 ≠ .rdstat ctx) ∧
    (∃ t, step { core2 abc with input := [PortIn.offer 0x10000040] } = .next t) ∧
    decode (PortIn.offer 0x10000040).cmdWord = .ok (.init 0 false 0 64) ∧ (0 : Ctx).toNat ≠ 1 :=
  ⟨⟨rfl, rfl, rfl, rfl, fun _ h => by cases h⟩, ⟨_, rfl⟩, by decide, by decide⟩

theorem witness_ErrorCodesOnThePort :
    ({ core2 abc with rsp := some ⟨.counterRange, 0⟩ } : State).rsp = some ⟨.counterRange, 0⟩ ∧
    ∃ t, acceptWord 0x80000000#32 (core2 abc) = .next t := ⟨rfl, _, rfl⟩

/-! ### Whole compressions; they come last, since the kernel computes 96 G calls for each -/

/-- V-S1: the digest of the empty message, over native lanes, begins 786a02f742015903. -/
theorem test_native_empty : (Native.blake2b 64 none []).take 8 = [0x78#8, 0x6A, 0x02, 0xF7, 0x42, 0x01, 0x59, 0x03] := by
  decide +kernel

/-- R122's example and V-C6: the 129th byte compresses the full block at t = 128 and lands at b[0]. -/
theorem test_updb_flushes : (slot0 (exec (.updb 0 0x80) (core2 full))).map
      (fun k => (k.status, k.t, k.b[0], (Native.chainLanes k.h).toList)) =
    some (0x00400102#32, 128, 0x80#8, [0xFFA0852A267EB85A, 0xEE3E4A8743C6C30B, 0x28A559F71459300A, 0x61B0EEAF429E7346,
      0x2F194672BCED790F, 0xBEF760BB734A4A5D, 0x37410E514215C327, 0xE96B7E8825D0F5A7]) := by decide +kernel

end Sys2Proof.Tests
end

section
/-!
The STATUS view (spec/10_state.md R35): the word of a live slot is the rows of the STATUS table side by side, and each
field of the claim is read off that row.
-/

namespace Sys2Proof.Machine

/-- R35: "In IDLE the whole word reads 0x00000000". -/
theorem status_of_idle {k : Slot} (h : k.st = .idle) : k.status = 0 := if_pos h

/-- R35: the rows of the STATUS table side by side, highest bits first. -/
def Slot.fieldRow (k : Slot) : BitVec (1 + 7 + 1 + 7 + 8 + 6 + 2) :=
  0#1 ++ k.kk ++ BitVec.ofBool k.kp ++ k.nn ++ k.c ++ 0#6 ++ k.st.code

/-- R35: outside IDLE the STATUS word is the row of fields. -/
theorem status_of_live {k : Slot} (h : k.st ≠ .idle) : k.status = k.fieldRow := by
  rw [Slot.status, if_neg h, ← BitVec.setWidth_eq (x := k.fieldRow), Slot.fieldRow]
  simp only [BitVec.setWidth_append_eq_shiftLeft_setWidth_or, BitVec.shiftLeft_or_distrib, ← BitVec.shiftLeft_add]
  simp

/-- R35: what stands at each place of the row. -/
theorem fieldRow_fields (k : Slot) :
    k.fieldRow.extractLsb' 0 2 = k.st.code ∧ k.fieldRow.extractLsb' 2 6 = 0#6 ∧ k.fieldRow.extractLsb' 8 8 = k.c ∧
    k.fieldRow.extractLsb' 16 7 = k.nn ∧ k.fieldRow.getLsbD 23 = k.kp ∧ k.fieldRow.extractLsb' 24 7 = k.kk ∧
    k.fieldRow.getLsbD 31 = false := by
  unfold Slot.fieldRow
  refine ⟨?st, ?reserved, ?c, ?nn, ?kp, ?kk, ?top⟩
  case kp => simp only [BitVec.getLsbD_append]; simp
  case top => simp only [BitVec.getLsbD_append]; simp
  all_goals
    simp (disch := decide) only [BitVec.extractLsb'_append_eq_of_le, Nat.reduceSub, BitVec.extractLsb'_append_eq_right]

/-- Settles O37: outside IDLE each slice of STATUS is the field at that place of the row. -/
theorem statusFields : Obligations.StatusFields := by
  refine fun k => ⟨status_of_idle, fun hlive => ?_⟩
  obtain ⟨hst, hrest⟩ := fieldRow_fields k
  rw [status_of_live hlive]
  exact ⟨hst.trans (by cases k.st <;> rfl), hrest⟩

end Sys2Proof.Machine
end

section
/-!
The counter view (spec/10_state.md R36): a slice by its value, and neighbouring slices put together again.
-/

namespace Sys2Proof.Machine

/-- R36: slice k as a number. -/
theorem counterSlice_eq_ofNat (t : BitVec 128) (k : Nat) :
    counterSlice t k = BitVec.ofNat 32 (t.toNat / 2 ^ (32 * k)) := by
  rw [counterSlice, BitVec.extractLsb', Nat.shiftRight_eq_div_pow]

/-- The four slices of the counter, the highest first, are the counter. -/
theorem counterSlices_append (t : BitVec 128) :
    counterSlice t 3 ++ counterSlice t 2 ++ counterSlice t 1 ++ counterSlice t 0 = t := by
  have join {len : Nat} (start : Nat) :
      t.extractLsb' (start + 32) len ++ t.extractLsb' start 32 = t.extractLsb' start (len + 32) :=
    BitVec.extractLsb'_append_extractLsb'_eq_extractLsb' rfl
  have hi : counterSlice t 3 ++ counterSlice t 2 = t.extractLsb' 64 64 := join 64
  have mid : t.extractLsb' 64 64 ++ counterSlice t 1 = t.extractLsb' 32 96 := join 32
  have all : t.extractLsb' 32 96 ++ counterSlice t 0 = t.extractLsb' 0 128 := join 0
  rw [hi, mid, all, BitVec.extractLsb'_eq_self]

/-- Settles O38, from the value of one slice and from joining neighbouring slices. -/
theorem counterSlices : Obligations.CounterSlices :=
  fun t => ⟨fun k _ => counterSlice_eq_ofNat t k, counterSlices_append t⟩

end Sys2Proof.Machine
end

section
/-!
The message block (spec/20_memory.md R62): its words and lanes by the bytes of the buffer.
-/

namespace Sys2Proof.Machine

/-- R8: the byte at addr is the least significant byte of `MemRead(addr, n + 1)`, also when it is widened. -/
theorem memRead_succ_setWidth (b : Buffer) (addr n w : Nat) (h : addr + (n + 1) ≤ 128) :
    (memRead b addr (n + 1) h).setWidth w =
      b[addr].setWidth w ||| (memRead b (addr + 1) n (by omega)).setWidth w <<< 8 := by
  rw [memRead, BitVec.or_comm]
  exact BitVec.setWidth_append_eq_shiftLeft_setWidth_or

/-- R8: `MemRead(addr, 0)` has no bit that is 1, at any width. -/
theorem memRead_zero_setWidth (b : Buffer) (addr w : Nat) (h : addr + 0 ≤ 128) :
    (memRead b addr 0 h).setWidth w = 0#w :=
  BitVec.setWidth_zero w 0

/-- R62: four bytes read at addr are shifted to their places, the byte at addr lowest. -/
theorem memRead_four_eq_or (b : Buffer) (addr : Nat) (h : addr + 4 ≤ 128) :
    memRead b addr 4 h =
      b[addr].setWidth 32 ||| b[addr + 1].setWidth 32 <<< 8 ||| b[addr + 2].setWidth 32 <<< 16
        ||| b[addr + 3].setWidth 32 <<< 24 := by
  rw [← BitVec.setWidth_eq (memRead b addr 4 h)]
  simp only [memRead_succ_setWidth, memRead_zero_setWidth, Nat.add_assoc, Nat.reduceAdd,
    BitVec.zero_shiftLeft, BitVec.or_zero, BitVec.shiftLeft_or_distrib, ← BitVec.shiftLeft_add, BitVec.or_assoc]

/-- R8: eight bytes read at addr are the four from addr + 4 on, above the four from addr on. -/
theorem memRead_eight_eq_append (b : Buffer) (addr : Nat) (h : addr + 8 ≤ 128) :
    memRead b addr 8 h = memRead b (addr + 4) 4 (by omega) ++ memRead b addr 4 (by omega) := by
  apply BitVec.eq_of_getLsbD_eq
  intro i hi
  rw [memRead_getLsbD b addr 8 h i hi, BitVec.getLsbD_append]
  split
  case isTrue hlow => rw [memRead_getLsbD b addr 4 _ i hlow]
  case isFalse hhigh =>
    rw [memRead_getLsbD b (addr + 4) 4 _ (i - 32) (by omega)]
    have hbyte : addr + 4 + (i - 32) / 8 = addr + i / 8 := by omega
    have hbit : (i - 32) % 8 = i % 8 := by omega
    simp only [hbyte, hbit]

/-- R8: byte k of `MemRead(addr, n)` is the byte of the buffer at addr + k. -/
theorem memRead_byte (b : Buffer) (addr n : Nat) (h : addr + n ≤ 128) (k : Nat) (hk : k < n) :
    (memRead b addr n h).extractLsb' (8 * k) 8 = b[addr + k] := by
  apply BitVec.eq_of_getLsbD_eq
  intro j hj
  rw [BitVec.getLsbD_extractLsb', memRead_getLsbD b addr n h (8 * k + j) (by omega)]
  have hbyte : (8 * k + j) / 8 = k := by omega
  have hbit : (8 * k + j) % 8 = j := by omega
  simp only [hj, hbyte, hbit, decide_true, Bool.true_and]

/-- R62: `M(i)` is `MemRead(8i, 8)`. -/
theorem laneValue_loadBlock (b : Buffer) (i : Fin 16) :
    laneValue (laneAt (loadBlock b) i) = memRead b (8 * i.val) 8 (by omega) := by
  have hlow : 4 * (2 * i.val) = 8 * i.val := by omega
  have hhigh : 4 * (2 * i.val + 1) = 8 * i.val + 4 := by omega
  rw [memRead_eight_eq_append, laneValue, laneAt]
  simp only [loadBlock_getElem, hlow, hhigh]

/-- Settles O17: words by their four bytes, lanes by their two words, bytes read back out of the lane. -/
theorem messageWordsLittleEndian : Obligations.MessageWordsLittleEndian := by
  refine fun b => ⟨fun j => ?word, fun i => ⟨laneValue_loadBlock b i, ?pair⟩, fun i k => ?byte⟩
  case word => rw [loadBlock_getElem, memRead_four_eq_or]
  case pair => exact (laneValue_loadBlock b i).symm
  case byte => rw [laneValue_loadBlock, memRead_byte b _ 8 _ k.val k.isLt]

end Sys2Proof.Machine
end

section
/-!
The digest view (spec/20_memory.md R63): a digest byte as a slice of a chaining word, and of a chaining lane.
-/

namespace Sys2Proof.Machine

/-- R63: digest byte i is byte i mod 4 of word i div 4. -/
theorem digestByte_eq_byte_of_word (h : Chain) (i : Nat) (hi : i < 64) :
    digestByte h i hi = h[i / 4].extractLsb' (8 * (i % 4)) 8 :=
  BitVec.setWidth_ushiftRight_eq_extractLsb

/-- R22: byte k of lane i is byte k of its low word, or byte k - 4 of its high word. -/
theorem chainLanes_byte (h : Chain) (i k : Nat) (hi : i < 8) (hk : k < 8) :
    (Native.chainLanes h)[i].extractLsb' (8 * k) 8 = h[2 * i + k / 4].extractLsb' (8 * (k % 4)) 8 := by
  rw [Native.chainLanes, Vector.getElem_ofFn]
  by_cases hlow : k < 4
  · have hword : k / 4 = 0 := by omega
    have hbyte : k % 4 = k := by omega
    rw [BitVec.extractLsb'_append_eq_of_add_le (by omega)]
    simp only [hword, hbyte, Nat.add_zero]
  · have hword : k / 4 = 1 := by omega
    have hbyte : 8 * (k % 4) = 8 * k - 32 := by omega
    rw [BitVec.extractLsb'_append_eq_of_le (by omega)]
    simp only [hword, hbyte]

/-- Settles O18: the byte of the word by definition, and that word as a half of the lane. -/
theorem digestIsLittleEndianChain : Obligations.DigestIsLittleEndianChain := by
  refine fun h i => ⟨BitVec.setWidth_eq_extractLsb' (by omega), ?lane⟩
  have hword : 2 * (i.val / 8) + i.val % 8 / 4 = i.val / 4 := by omega
  have hbyte : i.val % 8 % 4 = i.val % 4 := by omega
  rw [digestByte_eq_byte_of_word, chainLanes_byte h _ _ (by omega) (by omega)]
  simp only [hword, hbyte]

end Sys2Proof.Machine
end

section
/-!
The match and mask table (spec/30_encoding.md R97, R98): matching a row and decoding to its command are the same, and a word
that matches no row is refused by the port.
-/

namespace Sys2Proof

/-- R97: matching, as a Boolean, is the equation of the masked bits. -/
theorem matches_iff (r : OpRow) (w : Word) : r.matches w = true ↔ w &&& r.mask = r.pattern := beq_iff_eq

/-- R97: "A word w is command X iff `(w & mask_X) = match_X`". Only row X builds a command of row X, so a word that decodes
to X's command was read by row X. -/
theorem masked_eq_iff_decode {r : OpRow} (hr : r ∈ opRows) (w : Word) :
    w &&& r.mask = r.pattern ↔ decode w = .ok (r.build w) := by
  rw [← matches_iff]
  refine ⟨decode_of_matches hr, fun hdec => ?_⟩
  obtain ⟨r', hr', hmatch, hbuild⟩ := matches_of_decode hdec
  have hrow : r = r' := by rw [← row_of_build hr w, hbuild, row_of_build hr' w]
  rwa [hrow]

namespace Machine

/-- R98: a word whose masked bits match no row answers IllegalCommand with DATA 0, and changes nothing else. -/
theorem acceptWord_of_no_match {w : Word} (s : State) (h : ∀ r ∈ opRows, w &&& r.mask ≠ r.pattern) :
    acceptWord w s = .next (Claims.answered s .illegalCommand 0) := by
  obtain ⟨e, he⟩ := decode_of_no_match fun r hr => Bool.eq_false_iff.mpr (mt (matches_iff r w).mp (h r hr))
  rw [acceptWord, he]
  rfl

/-- Settles O4: its seven equivalences are the rows of the table in order, each by `masked_eq_iff_decode`. -/
theorem wordIsCommandIffRowMatches : Obligations.WordIsCommandIffRowMatches :=
  ⟨fun w => List.forall_iff_forall_mem.mpr fun _ hr => masked_eq_iff_decode hr w, fun _ s h => acceptWord_of_no_match s h⟩

end Machine
end Sys2Proof
end

section
/-!
Words with a reserved bit set (spec/30_encoding.md R99, 60_exceptions.md R223): a word that matches a row reads that row's
reserved fields as 0, and no other row has its OP.
-/

namespace Sys2Proof.Machine

/-- R97: in a word that matches a row, every field the row's mask covers reads as in the row's pattern. -/
theorem field_of_masked_eq {r : OpRow} {w : Word} (h : w &&& r.mask = r.pattern) {start len : Nat}
    (hmask : r.mask.extractLsb' start len = BitVec.allOnes len) :
    w.extractLsb' start len = r.pattern.extractLsb' start len := by
  rw [← h, BitVec.extractLsb'_and, hmask, BitVec.and_allOnes]

/-- R223: a word with a row's OP and a bit set in a field the row reserves answers IllegalCommand, and changes nothing
else. -/
theorem acceptWord_of_reserved {r : OpRow} (hr : r ∈ opRows) {start len : Nat}
    (hmask : r.mask.extractLsb' start len = BitVec.allOnes len) (hzero : r.pattern.extractLsb' start len = 0)
    (s : State) (w : Word) (hop : fieldOp w = fieldOp r.pattern) (hw : w.extractLsb' start len ≠ 0) :
    acceptWord w s = .next (Claims.answered s .illegalCommand 0) := by
  refine acceptWord_of_no_match s fun r' hr' hmatch => hw ?_
  have hrow : r' = r :=
    row_eq_of_op r' hr' r hr (by rw [← fieldOp_of_matches hr' ((matches_iff r' w).mpr hmatch), hop])
  rw [field_of_masked_eq (hrow ▸ hmatch) hmask, hzero]

end Sys2Proof.Machine
end

section
/-!
When a command answers what (spec/60_exceptions.md R221 to R226): an error for each cause, with nothing written; a reading;
the effect on the slot. The other direction of `exec_slot`: the case decides the outcome.
-/

namespace Sys2Proof.Machine

open Claims

variable {i : Instr} {s : State} {k k' : Slot} {e : Engine} {d : BitVec 32}

/-- R221 a: a slot that does not exist. -/
theorem exec_of_missing (h : s.slots.length ≤ i.ctx.toNat) : exec i s = .next (answered s .invalidParameter 0) :=
  exec_no_slot (List.getElem?_eq_none h)

/-- R222: a slot state that forbids the command. -/
theorem exec_of_stateForbids (hk : s.slots[i.ctx.toNat]? = some k) (h : stateForbids i k.st = true) :
    exec i s = .next (answered s .invalidState 0) := by
  cases i with
  | init | rdstat => cases h
  | keyb | updb | final | rddig | rdcnt => exact (withSlot_of_some hk _).trans (if_pos (of_decide_eq_true h))

/-- R221 b: NN in 1..64. -/
theorem nnInRange_iff (nn : Byte) : nnInRange nn = true ↔ 1 ≤ nn.toNat ∧ nn.toNat ≤ 64 := decide_eq_true_iff

/-- R221 c and d: KK in 1..64 with a key, 0 without one. -/
theorem kkInRange_iff (kp : Bool) (kk : Byte) :
    kkInRange kp kk = true ↔ (kp = true → 1 ≤ kk.toNat ∧ kk.toNat ≤ 64) ∧ (kp = false → kk.toNat = 0) := by
  cases kp <;> simp [kkInRange, ← BitVec.toNat_inj]

/-- R224: the counter check of UPDB and FINAL. -/
theorem counterWouldPass_iff (t : BitVec 128) (n : Nat) : counterWouldPass t n = true ↔ 2 ^ 128 - 1 < t.toNat + n :=
  decide_eq_true_iff

/-- R221 b to d: INIT's operands are bad exactly where one of the two checks fails. -/
theorem operandsBad_init_iff (ctx : Ctx) (kp : Bool) (kk nn : Byte) (k : Slot) :
    operandsBad (.init ctx kp kk nn) k = true ↔ ¬ (nnInRange nn = true ∧ kkInRange kp kk = true) := by
  rw [operandsBad, decide_eq_true_iff, nnInRange_iff, kkInRange_iff]
  cases kp <;> simp <;> omega

/-- R221 b to f: in a state that allows the command, an operand out of range. -/
theorem exec_of_operandsBad (hk : s.slots[i.ctx.toNat]? = some k) (hst : stateForbids i k.st = false)
    (h : operandsBad i k = true) : exec i s = .next (answered s .invalidParameter 0) := by
  change exec i s = s.raise .invalidParameter
  cases i with
  | init ctx kp kk nn =>
    refine (withSlot_of_some hk _).trans ?_
    have hrange : ¬ (nnInRange nn = true ∧ kkInRange kp kk = true) := (operandsBad_init_iff ctx kp kk nn k).mp h
    by_cases hnn : nnInRange nn = true
    · rw [if_neg (by simp [hnn]), if_pos (by simpa [hnn] using hrange)]
    · rw [if_pos (by simpa using hnn)]
  | rddig ctx idx =>
    refine (withSlot_of_some hk _).trans ?_
    rw [if_neg (of_decide_eq_false hst), if_pos (of_decide_eq_true h)]
  | rdcnt ctx idx =>
    refine (withSlot_of_some hk _).trans ?_
    rw [if_neg (of_decide_eq_false hst), if_pos (of_decide_eq_true h)]
  | keyb | updb | final | rdstat => cases h

/-- R224: in a state that allows the command, a counter that would pass 2^128 - 1. -/
theorem exec_of_counterBad (hk : s.slots[i.ctx.toNat]? = some k) (hst : stateForbids i k.st = false)
    (h : counterBad i k = true) : exec i s = .next (answered s .counterRange 0) := by
  change exec i s = s.raise .counterRange
  cases i with
  | updb ctx data =>
    obtain ⟨hfull, hpass⟩ := of_decide_eq_true h
    refine (withSlot_of_some hk _).trans ?_
    rw [if_neg (of_decide_eq_false hst), if_pos (BitVec.eq_of_toNat_eq hfull),
      if_pos ((counterWouldPass_iff _ _).mpr hpass)]
  | final ctx =>
    refine (withSlot_of_some hk _).trans ?_
    rw [if_neg (of_decide_eq_false hst), if_pos ((counterWouldPass_iff _ _).mpr (of_decide_eq_true h))]
  | init | keyb | rddig | rdstat | rdcnt => cases h

/-- R120 to R123: a writing command that passes its checks has its effect, and answers OK. -/
theorem exec_of_effect (hk : s.slots[i.ctx.toNat]? = some k) (h : Effect i k s.engine k' e) :
    exec i s = .next (wrote s i.ctx k' e) := by
  cases h with
  | init hnn hkk =>
    refine (withSlot_of_some hk _).trans ?_
    rw [if_neg (by simp [hnn]), if_neg (by simp [hkk])]
    rfl
  | keyb hc hst =>
    refine (withSlot_of_some hk _).trans ?_
    rw [if_neg (not_not.mpr hst), dif_pos hc]
    rfl
  | stage hc hst hfull =>
    refine (withSlot_of_some hk _).trans ?_
    rw [if_neg (not_not.mpr hst), if_neg hfull, dif_pos hc]
    rfl
  | flush hc hst hfull hcount =>
    refine (withSlot_of_some hk _).trans ?_
    rw [if_neg (not_not.mpr hst), if_pos hfull, if_neg (by simp [hcount])]
    rfl
  | final hst hcount =>
    refine (withSlot_of_some hk _).trans ?_
    rw [if_neg (not_not.mpr hst), if_neg (by simp [hcount])]
    rfl

/-- R124 to R126: a read that passes its checks answers OK with its reading, and nothing is written. -/
theorem exec_of_reading (hk : s.slots[i.ctx.toNat]? = some k) (h : Reading i k d) :
    exec i s = .next (answered s .ok d) := by
  cases h with
  | rddig hidx hst hnn =>
    refine (withSlot_of_some hk _).trans ?_
    rw [if_neg (not_not.mpr hst), if_neg (not_le.mpr hnn), dif_pos hidx]
    rfl
  | rdstat => exact withSlot_of_some hk _
  | rdcnt hst hidx =>
    refine (withSlot_of_some hk _).trans ?_
    rw [if_neg hst, if_neg (not_lt.mpr hidx)]
    rfl

end Sys2Proof.Machine
end

section
/-!
INIT (spec/40_context_commands.md R120).
-/

namespace Sys2Proof.Machine

open Claims

/-- R120: the parameter block, its operands as numbers. -/
theorem paramWord_eq_ofNat (kk nn : Byte) :
    paramWord kk nn = 0x01010000#32 ^^^ BitVec.ofNat 32 (kk.toNat * 256) ^^^ BitVec.ofNat 32 nn.toNat := by
  have hkk : kk.setWidth 32 <<< 8 = BitVec.ofNat 32 (kk.toNat * 256) := by
    apply BitVec.eq_of_toNat_eq
    simp [Nat.shiftLeft_eq]
  rw [paramWord, hkk, BitVec.ofNat_toNat]

/-- R120: the context INIT creates, its operands as numbers. -/
theorem freshSlot_eq (kp : Bool) (kk nn : Byte) :
    freshSlot kp kk nn =
      { st := if kp then .keying else .absorb
        h := iv32.set 0 (iv32[0] ^^^ (0x01010000#32 ^^^ BitVec.ofNat 32 (kk.toNat * 256) ^^^ BitVec.ofNat 32 nn.toNat))
        b := Vector.replicate 128 0
        t := 0
        c := 0
        nn := BitVec.ofNat 7 nn.toNat
        kp := kp
        kk := BitVec.ofNat 7 kk.toNat } := by
  rw [freshSlot, paramWord_eq_ofNat, BitVec.ofNat_toNat 7 nn, BitVec.ofNat_toNat 7 kk]

/-- R120: INIT with its operands in range, in every state of the slot. -/
theorem exec_init {s : State} {ctx : Ctx} {kp : Bool} {kk nn : Byte} (hctx : ctx.toNat < s.slots.length)
    (hnn : nnInRange nn = true) (hkk : kkInRange kp kk = true) :
    exec (.init ctx kp kk nn) s = .next (wrote s ctx (freshSlot kp kk nn) s.engine) :=
  exec_of_effect (i := .init ctx kp kk nn) (List.getElem?_eq_getElem hctx) (.init hnn hkk)

/-- R120: INIT with an operand out of range. -/
theorem exec_init_bad {s : State} {ctx : Ctx} {kp : Bool} {kk nn : Byte} (hctx : ctx.toNat < s.slots.length)
    (hbad : ¬ (nnInRange nn = true ∧ kkInRange kp kk = true)) :
    exec (.init ctx kp kk nn) s = .next (answered s .invalidParameter 0) :=
  exec_of_operandsBad (i := .init ctx kp kk nn) (List.getElem?_eq_getElem hctx) rfl
    ((operandsBad_init_iff ctx kp kk nn _).mpr hbad)

/-- Settles O19: each cause of InvalidParameter fails one of the two range checks, and INIT in range has its effect. -/
theorem initCreatesContext : Obligations.InitCreatesContext := by
  refine fun s ctx kp kk nn => ⟨exec_of_missing (i := .init ctx kp kk nn), ?nn, ?key, ?noKey, ?accepted,
    acceptWord_of_reserved (r := rowInit) (row_mem (.init ctx kp kk nn)) (by decide) (by decide) s⟩
  case nn =>
    refine fun hctx hbad => exec_init_bad hctx fun hok => ?_
    have := (nnInRange_iff nn).mp hok.1
    omega
  case key =>
    refine fun hctx hkp hbad => exec_init_bad hctx fun hok => ?_
    have := ((kkInRange_iff kp kk).mp hok.2).1 hkp
    omega
  case noKey => exact fun hctx hkp hbad => exec_init_bad hctx fun hok => hbad (((kkInRange_iff kp kk).mp hok.2).2 hkp)
  case accepted =>
    intro hctx hlo hhi hkey hnoKey
    rw [← freshSlot_eq]
    exact exec_init hctx ((nnInRange_iff nn).mpr ⟨hlo, hhi⟩) ((kkInRange_iff kp kk).mpr ⟨hkey, hnoKey⟩)

end Sys2Proof.Machine
end

section
/-!
KEYB, UPDB and FINAL (spec/40_context_commands.md R121 to R123): the slot each leaves, written out field by field.
-/

namespace Sys2Proof.Machine

open Claims

section
variable {s : State} {ctx : Ctx} {k : Slot} {data : Byte}

/-- R121, R122: the slot after a byte is staged. -/
theorem putByte_eq (k : Slot) (data : Byte) (h : k.c.toNat + 1 ≤ 128) :
    k.putByte data h = { k with b := k.b.setIfInBounds k.c.toNat data, c := k.c + 1 } := by
  have hset : k.b.set k.c.toNat data = k.b.setIfInBounds k.c.toNat data := by
    rw [← Vector.toList_inj, Vector.toList_set, Vector.toList_setIfInBounds]
  rw [← hset, ← putByte_b k data h]
  rfl

/-- R121: the fill meets the key length where the next fill, as a number, does. -/
theorem succ_fill_eq_keyLength_iff (hc : k.c.toNat < 128) :
    k.c + 1 = k.kk.setWidth 8 ↔ k.c.toNat + 1 = k.kk.toNat := by
  have hkk := k.kk.isLt
  rw [← BitVec.toNat_inj, BitVec.toNat_add, BitVec.toNat_setWidth]
  simp
  omega

/-- R121: KEYB with a byte that is not the last. -/
theorem exec_keyb_of_ne_last (hk : s.slots[ctx.toNat]? = some k) (hst : k.st = .keying) (hc : k.c.toNat < 128)
    (hlast : k.c.toNat + 1 ≠ k.kk.toNat) :
    exec (.keyb ctx data) s =
      .next (wrote s ctx { k with b := k.b.setIfInBounds k.c.toNat data, c := k.c + 1 } s.engine) := by
  have hput : (k.putByte data hc).completeKey = { k with b := k.b.setIfInBounds k.c.toNat data, c := k.c + 1 } := by
    rw [putByte_eq]
    exact if_neg (mt (succ_fill_eq_keyLength_iff hc).mp hlast)
  rw [← hput]
  exact exec_of_effect (i := .keyb ctx data) hk (.keyb hc hst)

/-- R121: KEYB with the last byte of the key. -/
theorem exec_keyb_of_last (hk : s.slots[ctx.toNat]? = some k) (hst : k.st = .keying) (hc : k.c.toNat < 128)
    (hlast : k.c.toNat + 1 = k.kk.toNat) :
    exec (.keyb ctx data) s =
      .next (wrote s ctx { k with b := k.b.setIfInBounds k.c.toNat data, c := 128, st := .absorb } s.engine) := by
  have hput : (k.putByte data hc).completeKey =
      { k with b := k.b.setIfInBounds k.c.toNat data, c := 128, st := .absorb } := by
    rw [putByte_eq]
    exact if_pos ((succ_fill_eq_keyLength_iff hc).mpr hlast)
  rw [← hput]
  exact exec_of_effect (i := .keyb ctx data) hk (.keyb hc hst)

/-- R122: UPDB into a buffer that is not full. -/
theorem exec_updb_of_not_full (hk : s.slots[ctx.toNat]? = some k) (hst : k.st = .absorb) (hc : k.c.toNat < 128) :
    exec (.updb ctx data) s =
      .next (wrote s ctx { k with b := k.b.setIfInBounds k.c.toNat data, c := k.c + 1 } s.engine) := by
  have hfull : k.c ≠ 128 := fun h => by simp [h] at hc
  rw [← putByte_eq k data hc]
  exact exec_of_effect (i := .updb ctx data) hk (.stage hc hst hfull)

/-- R122: the slot after a full buffer is compressed and a byte is staged. -/
theorem flush_putByte_eq (k : Slot) (data : Byte) (h : k.flush.c.toNat + 1 ≤ 128) :
    k.flush.putByte data h =
      { k with
        h := compressChain k.h k.b (BitVec.ofNat 128 (k.t.toNat + 128)) false
        t := BitVec.ofNat 128 (k.t.toNat + 128)
        b := k.b.setIfInBounds 0 data
        c := 1 } := by
  have ht : BitVec.ofNat 128 (k.t.toNat + 128) = k.t + 128 := by simp [BitVec.ofNat_add]
  rw [putByte_eq, ht]
  rfl

/-- R122: UPDB into a full buffer compresses it, and leaves no compression in progress. -/
theorem exec_updb_of_full (hk : s.slots[ctx.toNat]? = some k) (hst : k.st = .absorb) (hc : k.c.toNat = 128)
    (ht : k.t.toNat + 128 ≤ 2 ^ 128 - 1) :
    ∃ e : Engine, e.seq = none ∧ exec (.updb ctx data) s =
      .next (wrote s ctx
        { k with
          h := compressChain k.h k.b (BitVec.ofNat 128 (k.t.toNat + 128)) false
          t := BitVec.ofNat 128 (k.t.toNat + 128)
          b := k.b.setIfInBounds 0 data
          c := 1 } e) := by
  refine ⟨Engine.compressed k.h k.b (k.t + 128) false, compressed_seq _ _ _ _, ?_⟩
  have hcount : counterWouldPass k.t 128 = false :=
    Bool.eq_false_iff.mpr fun h => not_lt.mpr ht ((counterWouldPass_iff _ _).mp h)
  rw [← flush_putByte_eq k data (by simp)]
  exact exec_of_effect (i := .updb ctx data) hk (.flush _ hst (BitVec.eq_of_toNat_eq hc) hcount)

/-- R123: byte j of the padded buffer. -/
theorem zeroFrom_getElem (b : Buffer) (c : Nat) (j : Fin 128) :
    (zeroFrom b c)[j.val] = if j.val < c then b[j.val] else 0 := by
  have h := zeroFrom_getElem? b c j.val
  rw [Vector.getElem?_eq_getElem j.isLt, Vector.getElem?_eq_getElem j.isLt, if_pos j.isLt, ← apply_ite some] at h
  exact Option.some.inj h

/-- R123: the slot FINAL leaves. -/
theorem final_slot_eq (k : Slot) :
    { k.padded.compress true with st := .done } =
      { k with
        st := .done
        h := compressChain k.h (zeroFrom k.b k.c.toNat) (BitVec.ofNat 128 (k.t.toNat + k.c.toNat)) true
        t := BitVec.ofNat 128 (k.t.toNat + k.c.toNat)
        b := zeroFrom k.b k.c.toNat
        c := 128 } := by
  have ht : BitVec.ofNat 128 (k.t.toNat + k.c.toNat) = k.t + k.c.setWidth 128 := by simp [BitVec.ofNat_add]
  rw [ht]
  rfl

/-- R123: FINAL with a counter in range compresses the padded buffer, and leaves no compression in progress. -/
theorem exec_final_of_in_range (hk : s.slots[ctx.toNat]? = some k) (hst : k.st = .absorb)
    (ht : k.t.toNat + k.c.toNat ≤ 2 ^ 128 - 1) :
    ∃ e : Engine, e.seq = none ∧ exec (.final ctx) s =
      .next (wrote s ctx
        { k with
          st := .done
          h := compressChain k.h (zeroFrom k.b k.c.toNat) (BitVec.ofNat 128 (k.t.toNat + k.c.toNat)) true
          t := BitVec.ofNat 128 (k.t.toNat + k.c.toNat)
          b := zeroFrom k.b k.c.toNat
          c := 128 } e) := by
  refine ⟨Engine.compressed k.padded.h k.padded.b k.padded.t true, compressed_seq _ _ _ _, ?_⟩
  have hcount : counterWouldPass k.t k.c.toNat = false :=
    Bool.eq_false_iff.mpr fun h => not_lt.mpr ht ((counterWouldPass_iff _ _).mp h)
  rw [← final_slot_eq k]
  exact exec_of_effect (i := .final ctx) hk (.final hst hcount)

end

/-- Settles O20: KEYB by whether its byte is the last one of the key. -/
theorem keybAbsorbsKeyByte : Obligations.KeybAbsorbsKeyByte := fun s ctx data =>
  ⟨exec_of_missing (i := .keyb ctx data),
    fun _ hk => ⟨fun hst => exec_of_stateForbids (i := .keyb ctx data) hk (decide_eq_true hst),
      exec_keyb_of_ne_last hk, exec_keyb_of_last hk⟩,
    acceptWord_of_reserved (r := rowKeyb) (row_mem (.keyb ctx data)) (by decide) (by decide) s⟩

/-- Settles O21: UPDB by whether the buffer is full, and then by the counter. -/
theorem updbAbsorbsMessageByte : Obligations.UpdbAbsorbsMessageByte := fun s ctx data =>
  ⟨exec_of_missing (i := .updb ctx data),
    fun _ hk => ⟨fun hst => exec_of_stateForbids (i := .updb ctx data) hk (decide_eq_true hst),
      exec_updb_of_not_full hk,
      fun hst hc ht => exec_of_counterBad (i := .updb ctx data) hk (decide_eq_false (not_not.mpr hst))
        (decide_eq_true ⟨hc, ht⟩),
      exec_updb_of_full hk⟩,
    acceptWord_of_reserved (r := rowUpdb) (row_mem (.updb ctx data)) (by decide) (by decide) s⟩

/-- Settles O22: FINAL by the counter; the buffer it compresses is `zeroFrom`'s. -/
theorem finalLatchesDigest : Obligations.FinalLatchesDigest := by
  refine fun s ctx => ⟨exec_of_missing (i := .final ctx),
    fun k hk => ⟨fun hst => exec_of_stateForbids (i := .final ctx) hk (decide_eq_true hst),
      fun hst ht => exec_of_counterBad (i := .final ctx) hk (decide_eq_false (not_not.mpr hst)) (decide_eq_true ht),
      fun hst ht => ?accepted⟩,
    acceptWord_of_reserved (r := rowFinal) (row_mem (.final ctx)) (by decide) (by decide) s⟩
  obtain ⟨e, hseq, hexec⟩ := exec_final_of_in_range hk hst ht
  exact ⟨e, zeroFrom k.b k.c.toNat, hseq, zeroFrom_getElem k.b k.c.toNat, hexec⟩

end Sys2Proof.Machine
end

section
/-!
RDDIG, RDSTAT and RDCNT (spec/40_context_commands.md R124 to R126): the reading each answers, as a number or a slice.
-/

namespace Sys2Proof.Machine

open Claims

/-- Settles O23: the state comes before the index, and the reading is a byte of a chaining word. -/
theorem rddigReadsDigestByte : Obligations.RddigReadsDigestByte := by
  refine fun s ctx idx => ⟨exec_of_missing (i := .rddig ctx idx),
    fun k hk => ⟨fun hst => exec_of_stateForbids (i := .rddig ctx idx) hk (decide_eq_true hst),
      fun hst hidx => exec_of_operandsBad (i := .rddig ctx idx) hk (decide_eq_false (not_not.mpr hst))
        (decide_eq_true hidx),
      fun hst hnn hidx => ?accepted⟩,
    acceptWord_of_reserved (r := rowRddig) (row_mem (.rddig ctx idx)) (by decide) (by decide) s⟩
  have hlt : idx.toNat < 64 := by omega
  have hbyte := (digestIsLittleEndianChain k.h ⟨idx.toNat, hlt⟩).1
  refine ⟨k.h[idx.toNat / 4], Vector.getElem?_eq_getElem (by omega), ?_⟩
  rw [← hbyte]
  exact exec_of_reading (i := .rddig ctx idx) hk (.rddig hlt hst hidx)

/-- An appended word as a number: the high part above the low part. -/
theorem append_toNat {m n : Nat} (x : BitVec m) (y : BitVec n) : (x ++ y).toNat = x.toNat * 2 ^ n + y.toNat := by
  rw [BitVec.toNat_append, ← Nat.shiftLeft_add_eq_or_of_lt y.isLt, Nat.shiftLeft_eq]

/-- R35: the row of fields as a number, each field at its place. -/
theorem fieldRow_toNat (k : Slot) :
    k.fieldRow.toNat =
      k.kk.toNat * 2 ^ 24 + k.kp.toNat * 2 ^ 23 + k.nn.toNat * 2 ^ 16 + k.c.toNat * 2 ^ 8 + k.st.code.toNat := by
  simp only [Slot.fieldRow, append_toNat, BitVec.toNat_ofBool, BitVec.toNat_ofNat]
  omega

/-- Settles O24: STATUS is 0 in IDLE and the row of fields elsewhere. -/
theorem rdstatReadsStatus : Obligations.RdstatReadsStatus := by
  refine fun s ctx => ⟨exec_of_missing (i := .rdstat ctx), fun k hk => ?answers,
    acceptWord_of_reserved (r := rowRdstat) (row_mem (.rdstat ctx)) (by decide) (by decide) s⟩
  have hexec : exec (.rdstat ctx) s = .next (answered s .ok k.status) := exec_of_reading (i := .rdstat ctx) hk .rdstat
  refine ⟨fun hidle => by rw [hexec, status_of_idle hidle], fun hlive => ?_⟩
  have hrow : BitVec.ofNat 32 k.fieldRow.toNat = k.fieldRow := BitVec.ofNat_toNat 32 k.fieldRow ▸ BitVec.setWidth_eq _
  rw [hexec, status_of_live hlive, ← fieldRow_toNat, hrow]

/-- Settles O25: the state comes before the index, and the reading is a slice of the counter. -/
theorem rdcntReadsCounterSlice : Obligations.RdcntReadsCounterSlice := by
  refine fun s ctx idx => ⟨exec_of_missing (i := .rdcnt ctx idx),
    fun k hk => ⟨fun hst => exec_of_stateForbids (i := .rdcnt ctx idx) hk (decide_eq_true hst),
      fun hst hidx => exec_of_operandsBad (i := .rdcnt ctx idx) hk (decide_eq_false hst) (decide_eq_true hidx),
      fun hst hidx => ?accepted⟩,
    acceptWord_of_reserved (r := rowRdcnt) (row_mem (.rdcnt ctx idx)) (by decide) (by decide) s⟩
  rw [← counterSlice_eq_ofNat]
  exact exec_of_reading (i := .rdcnt ctx idx) hk (.rdcnt hst hidx)

end Sys2Proof.Machine
end

section
/-!
The key path (spec/40_context_commands.md R129): the buffer as its bytes are staged one by one, and the slot a run of KEYB
leaves.
-/

namespace Sys2Proof.Machine

open Claims

/-- R39: a slot written is the slot read back, where it exists, also when the answer has been delivered. -/
theorem deliver_wrote_slot {s : State} {ctx : Ctx} (hctx : ctx.toNat < s.slots.length) (k : Slot) (e : Engine) :
    (wrote s ctx k e).deliver.slots[ctx.toNat]? = some k := by
  rw [deliver_slots]
  exact List.getElem?_set_self hctx

/-- The bytes l with the bytes xs written over them from address a on. -/
def overwrite (l : List Byte) (a : Nat) (xs : List Byte) : List Byte := l.take a ++ xs ++ l.drop (a + xs.length)

theorem overwrite_nil (l : List Byte) (a : Nat) : overwrite l a [] = l := by simp [overwrite]

/-- Bytes written over a block of one byte, from its start on. -/
theorem overwrite_replicate (n : Nat) (z : Byte) (xs : List Byte) :
    overwrite (List.replicate n z) 0 xs = xs ++ List.replicate (n - xs.length) z := by
  rw [overwrite, List.take_zero, List.nil_append, Nat.zero_add, List.drop_replicate]

/-- R61: bytes written in order, one at a time. -/
theorem overwrite_set {l : List Byte} {a : Nat} (ha : a < l.length) (x : Byte) (xs : List Byte) :
    overwrite (l.set a x) (a + 1) xs = overwrite l a (x :: xs) := by
  have htake : (l.set a x).take (a + 1) = l.take a ++ [x] := by
    rw [List.take_succ_eq_append_getElem (by simpa using ha), List.getElem_set_self, List.take_set_of_le le_rfl]
  have hlen : a + (x :: xs).length = a + 1 + xs.length := by rw [List.length_cons]; omega
  rw [overwrite, overwrite, htake, List.drop_set_of_lt (by omega), hlen, List.append_assoc (l.take a), List.singleton_append]

/-- R121, R129: from a slot in KEYING, the bytes of the key that are still missing run to a slot in ABSORB that counts as
full and whose buffer holds them after the bytes already staged. -/
theorem runCommands_keyCmds {ctx : Ctx} (x : Byte) (xs : List Byte) {s : State} {k : Slot}
    (hk : s.slots[ctx.toNat]? = some k) (hst : k.st = .keying) (hlen : k.c.toNat + xs.length + 1 = k.kk.toNat) :
    ∃ (t : State) (b : Buffer), runCommands (keyCmds ctx (x :: xs)) s = .next t ∧
      t.slots[ctx.toNat]? = some { k with st := .absorb, c := 128, b := b } ∧
      b.toList = overwrite k.b.toList k.c.toNat (x :: xs) := by
  have hkk : k.kk.toNat < 2 ^ 7 := k.kk.isLt
  induction xs generalizing x s k with
  | nil =>
    have hctx : ctx.toNat < s.slots.length := (List.getElem?_eq_some_iff.mp hk).1
    refine ⟨_, k.b.setIfInBounds k.c.toNat x, runCommands_cons (exec_keyb_of_last hk hst (by omega) hlen),
      deliver_wrote_slot hctx _ _, ?_⟩
    rw [Vector.toList_setIfInBounds, ← overwrite_set (by rw [Vector.length_toList]; omega), overwrite_nil]
  | cons y ys ih =>
    have hctx : ctx.toNat < s.slots.length := (List.getElem?_eq_some_iff.mp hk).1
    rw [List.length_cons] at hlen
    have hexec := exec_keyb_of_ne_last (data := x) hk hst (by omega) (by omega)
    have hc : (k.c + 1).toNat = k.c.toNat + 1 := BitVec.toNat_add_of_lt (by simp; omega)
    have hlen' : (k.c + 1).toNat + ys.length + 1 = k.kk.toNat := by omega
    have hnext := deliver_wrote_slot hctx { k with b := k.b.setIfInBounds k.c.toNat x, c := k.c + 1 } s.engine
    obtain ⟨t, b, hrun, hslot, hb⟩ := ih y hnext hst hlen' hkk
    refine ⟨t, b, (runCommands_cons hexec).trans hrun, hslot, ?_⟩
    rw [hb, Vector.toList_setIfInBounds, hc, overwrite_set (by rw [Vector.length_toList]; omega)]

/-- Settles O54: INIT leaves a fresh slot in KEYING, and its key bytes, all still missing, are written over the zeros. -/
theorem keyPathState : Obligations.KeyPathState := by
  intro s ctx nn ks hctx hnn hnn' hks hks'
  obtain ⟨x, xs, rfl⟩ := List.exists_cons_of_length_pos hks
  have hn : (BitVec.ofNat 8 nn).toNat = nn := by rw [BitVec.toNat_ofNat]; omega
  have hkk : (BitVec.ofNat 8 (x :: xs).length).toNat = (x :: xs).length := by rw [BitVec.toNat_ofNat]; omega
  have hinit := exec_init (kp := true) hctx ((nnInRange_iff (BitVec.ofNat 8 nn)).mpr (by omega))
    ((kkInRange_iff true (BitVec.ofNat 8 (x :: xs).length)).mpr ⟨fun _ => by omega, nofun⟩)
  have hmissing : 0 + xs.length + 1 = ((BitVec.ofNat 8 (x :: xs).length).setWidth 7).toNat := by
    have hlen : (x :: xs).length = xs.length + 1 := List.length_cons
    rw [BitVec.toNat_setWidth, hkk]
    omega
  have hfresh := deliver_wrote_slot hctx (freshSlot true (BitVec.ofNat 8 (x :: xs).length) (BitVec.ofNat 8 nn)) s.engine
  obtain ⟨t, b, hrun, hslot, hb⟩ := runCommands_keyCmds x xs hfresh rfl hmissing
  refine ⟨t, _, (runCommands_cons hinit).trans hrun, hslot, ?chain, ?buffer, rfl, rfl, rfl⟩
  case chain => rw [freshSlot_eq, hn, hkk]
  case buffer =>
    have hzero : (freshSlot true (BitVec.ofNat 8 (x :: xs).length) (BitVec.ofNat 8 nn)).b.toList = List.replicate 128 0 :=
      Vector.toList_replicate
    rw [hb, hzero]
    exact overwrite_replicate 128 0 (x :: xs)

end Sys2Proof.Machine
end

section
/-!
Runs that meet in one slot (spec/10_state.md R39, 40_context_commands.md R128): two machines that hold the same slot answer
its commands alike, and commands on other slots and reads leave it alone.
-/

namespace Sys2Proof.Machine

open Claims

/-- Two outcomes a host of slot a cannot tell apart: the same answer and the same slot a, or the same stop. -/
inductive AlikeAt (a : Ctx) : Result → Result → Prop
  | next {t t' : State} : t'.rsp = t.rsp → t'.slots[a.toNat]? = t.slots[a.toNat]? → AlikeAt a (.next t) (.next t')
  | fault (f : Fault) : AlikeAt a (.fault f) (.fault f)

section
variable {a : Ctx} {s s' : State}

theorem alikeAt_respond (h : s.slots[a.toNat]? = s'.slots[a.toNat]?) (e : ErrorCode) (d : BitVec 32) :
    AlikeAt a (.next (s.respond e d)) (.next (s'.respond e d)) :=
  .next rfl h.symm

theorem alikeAt_finish (h : s.slots[a.toNat]? = s'.slots[a.toNat]?) (k : Slot) :
    AlikeAt a (s.finish a k) (s'.finish a k) := by
  refine .next rfl ?_
  rw [respond_slots, respond_slots, setSlot_slots, setSlot_slots, List.getElem?_set_self', List.getElem?_set_self', h]

theorem withSlot_alikeAt (h : s.slots[a.toNat]? = s'.slots[a.toNat]?) {f f' : Slot → Result}
    (hf : ∀ k, AlikeAt a (f k) (f' k)) : AlikeAt a (withSlot a s f) (withSlot a s' f') := by
  cases hk : s.slots[a.toNat]? with
  | none =>
    rw [withSlot_of_none hk, withSlot_of_none (h ▸ hk)]
    exact alikeAt_respond h _ _
  | some k =>
    rw [withSlot_of_some hk, withSlot_of_some (h ▸ hk)]
    exact hf k

/-- R39: a command reads no slot but its own, so its checks pass or fail alike on two machines that hold the same one. -/
theorem exec_alikeAt (i : Instr) (h : s.slots[i.ctx.toNat]? = s'.slots[i.ctx.toNat]?) :
    AlikeAt i.ctx (exec i s) (exec i s') := by
  cases i with
  | init ctx kp kk nn =>
    refine withSlot_alikeAt h fun k => ?_
    split_ifs
    · exact alikeAt_respond h _ _
    · exact alikeAt_respond h _ _
    · exact alikeAt_finish h _
  | keyb ctx data =>
    refine withSlot_alikeAt h fun k => ?_
    split_ifs
    · exact alikeAt_respond h _ _
    · exact alikeAt_finish h _
    · exact .fault _
  | updb ctx data =>
    refine withSlot_alikeAt h fun k => ?_
    split_ifs
    · exact alikeAt_respond h _ _
    · exact alikeAt_respond h _ _
    · exact alikeAt_finish (s := s.runEngine _ false) (s' := s'.runEngine _ false) h _
    · exact alikeAt_finish h _
    · exact .fault _
  | final ctx =>
    refine withSlot_alikeAt h fun k => ?_
    split_ifs
    · exact alikeAt_respond h _ _
    · exact alikeAt_respond h _ _
    · exact alikeAt_finish (s := s.runEngine _ true) (s' := s'.runEngine _ true) h _
  | rddig ctx idx =>
    refine withSlot_alikeAt h fun k => ?_
    split_ifs
    · exact alikeAt_respond h _ _
    · exact alikeAt_respond h _ _
    · exact alikeAt_respond h _ _
    · exact .fault _
  | rdstat ctx => exact withSlot_alikeAt h fun k => alikeAt_respond h _ _
  | rdcnt ctx idx =>
    refine withSlot_alikeAt h fun k => ?_
    split_ifs <;> exact alikeAt_respond h _ _

/-- R39: on a machine that holds the same slot the command ends too, with the same answer and the same slot. -/
theorem exec_next_of_same_slot {i : Instr} {t : State} (h : s.slots[i.ctx.toNat]? = s'.slots[i.ctx.toNat]?)
    (ht : exec i s = .next t) :
    ∃ t', exec i s' = .next t' ∧ t'.rsp = t.rsp ∧ t'.slots[i.ctx.toNat]? = t.slots[i.ctx.toNat]? := by
  have halike := exec_alikeAt i h
  rw [ht] at halike
  generalize exec i s' = r at halike
  cases halike with
  | next hrsp hslot => exact ⟨_, rfl, hrsp, hslot⟩

end

/-- R39: a command on another slot, or a read of any slot, leaves the slot as it was. -/
theorem exec_slot_kept {i : Instr} {a : Ctx} {s t : State} (hi : i.ctx ≠ a ∨ isRead i = true) (h : exec i s = .next t) :
    t.slots[a.toNat]? = s.slots[a.toNat]? := by
  rcases exec_next h with ⟨_, _, rfl⟩ | ⟨_, _, _, _, rfl⟩ | ⟨k, k', e, _, heffect, rfl⟩
  · rfl
  · rfl
  · have hother : i.ctx ≠ a := hi.resolve_right (by cases heffect <;> exact Bool.false_ne_true)
    exact slot?_setSlot_other (ctx := i.ctx) (ctx' := a) (s := { s with engine := e }) (k := k') hother.symm

/-- R102: no command delivers a response. -/
theorem exec_delivered {i : Instr} {s t : State} (h : exec i s = .next t) : t.delivered = s.delivered := by
  rcases exec_next h with ⟨_, _, rfl⟩ | ⟨_, _, _, _, rfl⟩ | ⟨_, _, _, _, _, rfl⟩ <;> rfl

/-- R259: a command of a run hands the host its one response. -/
theorem exec_deliver_delivered {i : Instr} {s t : State} (h : exec i s = .next t) {r : Response} (hr : t.rsp = some r) :
    t.deliver.delivered = s.delivered ++ [r] := by
  rw [deliver_of_rsp hr, ← exec_delivered h]

/-- R128: the commands between two pieces leave the slot as it was. -/
theorem runCommands_slot_kept {a : Ctx} {is : List Instr} {s t : State}
    (his : ∀ i ∈ is, i.ctx ≠ a ∨ isRead i = true) (h : runCommands is s = .next t) :
    t.slots[a.toNat]? = s.slots[a.toNat]? := by
  induction is generalizing s with
  | nil => cases h; rfl
  | cons i is ih =>
    obtain ⟨u, hu, hrest⟩ := exec_of_runCommands h
    rw [ih (fun j hj => his j (List.mem_cons_of_mem i hj)) hrest, deliver_slots,
      exec_slot_kept (his i List.mem_cons_self) hu]

/-- A run of two parts has a state between them. -/
theorem runCommands_of_append {is js : List Instr} {s t : State} (h : runCommands (is ++ js) s = .next t) :
    ∃ u, runCommands is s = .next u ∧ runCommands js u = .next t := by
  induction is generalizing s with
  | nil => exact ⟨s, rfl, h⟩
  | cons i is ih =>
    obtain ⟨v, hv, hrest⟩ := exec_of_runCommands h
    obtain ⟨u, hu, hjs⟩ := ih hrest
    exact ⟨u, (runCommands_cons hv).trans hu, hjs⟩

/-- R39, R259: a run of commands on one slot, on a machine that holds the same slot, hands the host the same responses, one
for each command, and leaves the same slot. -/
theorem runCommands_alike {a : Ctx} {js : List Instr} {s s' t : State} (hjs : ∀ j ∈ js, j.ctx = a)
    (hs : s.slots[a.toNat]? = s'.slots[a.toNat]?) (h : runCommands js s = .next t) :
    ∃ (t' : State) (rs : List Response), runCommands js s' = .next t' ∧ t'.slots[a.toNat]? = t.slots[a.toNat]? ∧
      rs.length = js.length ∧ t.delivered = s.delivered ++ rs ∧ t'.delivered = s'.delivered ++ rs := by
  induction js generalizing s s' with
  | nil =>
    cases h
    exact ⟨s', [], rfl, hs.symm, rfl, (List.append_nil _).symm, (List.append_nil _).symm⟩
  | cons j js ih =>
    obtain rfl := hjs j List.mem_cons_self
    obtain ⟨u, hu, hrest⟩ := exec_of_runCommands h
    obtain ⟨u', hu', hrsp, hslot⟩ := exec_next_of_same_slot hs hu
    obtain ⟨r, hr⟩ := exec_answers hu
    obtain ⟨t', rs, hrun, hend, hlen, hdel, hdel'⟩ := ih (fun i hi => hjs i (List.mem_cons_of_mem j hi))
      (s' := u'.deliver) (by rw [deliver_slots, deliver_slots, hslot]) hrest
    refine ⟨t', r :: rs, (runCommands_cons hu').trans hrun, hend, congrArg (· + 1) hlen, ?_, ?_⟩
    · rw [hdel, exec_deliver_delivered hu hr, List.append_assoc, List.singleton_append]
    · rw [hdel', exec_deliver_delivered hu' (hrsp.trans hr), List.append_assoc, List.singleton_append]

/-- R111: every UPDB of a piece is on the slot it names. -/
theorem ctx_of_mem_updateCmds {ctx : Ctx} {bytes : List Byte} : ∀ i ∈ updateCmds ctx bytes, i.ctx = ctx := by
  simp [updateCmds, Instr.ctx]

/-- R128: pieces with gaps between them leave the slot that their concatenation leaves. -/
theorem runCommands_pieces {ctx : Ctx} {pieces : List (List Byte × List Instr)} {s s' t : State}
    (hgaps : ∀ p ∈ pieces, ∀ i ∈ p.2, i.ctx ≠ ctx ∨ isRead i = true)
    (hs : s.slots[ctx.toNat]? = s'.slots[ctx.toNat]?)
    (h : runCommands (pieces.flatMap fun p => updateCmds ctx p.1 ++ p.2) s = .next t) :
    ∃ t', runCommands (updateCmds ctx (pieces.flatMap Prod.fst)) s' = .next t' ∧
      t'.slots[ctx.toNat]? = t.slots[ctx.toNat]? := by
  induction pieces generalizing s s' with
  | nil => cases h; exact ⟨s', rfl, hs.symm⟩
  | cons p ps ih =>
    rw [List.flatMap_cons, List.append_assoc] at h
    obtain ⟨u, hpiece, h⟩ := runCommands_of_append h
    obtain ⟨v, hgap, hrest⟩ := runCommands_of_append h
    obtain ⟨u', _, hpiece', hu', _⟩ := runCommands_alike ctx_of_mem_updateCmds hs hpiece
    have hv : v.slots[ctx.toNat]? = u'.slots[ctx.toNat]? :=
      (runCommands_slot_kept (hgaps p List.mem_cons_self) hgap).trans hu'.symm
    obtain ⟨t', hrun, hend⟩ := ih (fun q hq => hgaps q (List.mem_cons_of_mem p hq)) hv hrest
    refine ⟨t', ?_, hend⟩
    rw [List.flatMap_cons, updateCmds, List.map_append]
    exact (runCommands_append _ _ hpiece').trans hrun

/-- Settles O53, from the run of the pieces and the run of what follows on the two machines. -/
theorem chunkingIrrelevant : Obligations.ChunkingIrrelevant := by
  intro ctx pieces s s' t hgaps hs h
  obtain ⟨t', hrun, hend⟩ := runCommands_pieces hgaps hs h
  refine ⟨t', hrun, hend, fun js u hjs hu => ?_⟩
  exact runCommands_alike hjs hend.symm hu

end Sys2Proof.Machine
end

section
/-!
The arithmetic on halves over 64-bit values (spec/43_word_pair_arith.md R200 to R204, R209). Shifting a pair of words right
is taking a slice of the longer word they make, so a rotation is a slice of the lane written twice.
-/

namespace Sys2Proof.Machine

/-- R200: the low half of a sum. -/
theorem add64_lo_toNat (a b : Lane) : (add64 a b).lo.toNat = (a.lo.toNat + b.lo.toNat) % 2 ^ 32 := by
  simp [add64]

/-- R200: the high half of a sum, with the carry out of the low halves. -/
theorem add64_hi_toNat (a b : Lane) :
    (add64 a b).hi.toNat = (a.hi.toNat + b.hi.toNat + (a.lo.toNat + b.lo.toNat) / 2 ^ 32) % 2 ^ 32 := by
  have ha := a.lo.isLt
  have hb := b.lo.isLt
  simp [add64, Nat.shiftRight_eq_div_pow]
  omega

/-- R201: `ADD64` is addition mod 2^64. -/
theorem laneValue_add64 (a b : Lane) : laneValue (add64 a b) = laneValue a + laneValue b := by
  apply BitVec.eq_of_toNat_eq
  rw [BitVec.toNat_add, laneValue_toNat, laneValue_toNat, laneValue_toNat, add64_hi_toNat, add64_lo_toNat]
  omega

theorem laneValue_xor64 (a b : Lane) : laneValue (xor64 a b) = laneValue a ^^^ laneValue b := BitVec.xor_append.symm

theorem laneValue_not64 (a : Lane) : laneValue (not64 a) = ~~~ laneValue a := BitVec.not_append.symm

/-- `x` shifted right by k, with the low bits of `y` shifted in from above. -/
theorem shiftPair_eq_extractLsb' {w : Nat} (x y : BitVec w) {k : Nat} (hk : k ≤ w) :
    x >>> k ||| y <<< (w - k) = (y ++ x).extractLsb' k w := by
  apply BitVec.eq_of_getLsbD_eq
  intro i hi
  rw [BitVec.getLsbD_or, BitVec.getLsbD_ushiftRight, BitVec.getLsbD_shiftLeft, BitVec.getLsbD_extractLsb',
    BitVec.getLsbD_append]
  by_cases hlow : k + i < w
  · have hsmall : i < w - k := by omega
    simp [hi, hlow, hsmall]
  · have hbig : ¬ i < w - k := by omega
    have hbit : i - (w - k) = k + i - w := by omega
    simp [hi, hlow, hbig, hbit, BitVec.getLsbD_of_ge x (k + i) (by omega)]

/-- The middle of a lane written twice is the lane with its halves swapped. -/
theorem extractLsb'_twice_middle (x y : Half) {m : Nat} (hlo : 32 ≤ m) (hhi : m ≤ 64) :
    ((y ++ x) ++ (y ++ x)).extractLsb' m 32 = (x ++ y).extractLsb' (m - 32) 32 := by
  have hassoc : (y ++ x) ++ (y ++ x) = (y ++ (x ++ y)) ++ x := by
    simp only [BitVec.append_assoc, BitVec.cast_eq]
  rw [hassoc, BitVec.extractLsb'_append_eq_of_le hlo, BitVec.extractLsb'_append_eq_of_add_le (by omega)]

/-- R204 for the rotations that swap the halves; at 32 the shifts in it are by 0 and by 32. -/
theorem rotr64_of_ge (a : Lane) {n : Nat} (hn : 32 ≤ n) :
    rotr64 a n = ⟨a.hi >>> (n - 32) ||| a.lo <<< (32 - (n - 32)), a.lo >>> (n - 32) ||| a.hi <<< (32 - (n - 32))⟩ := by
  obtain rfl | hgt := hn.eq_or_lt
  · simp [rotr64]
  · rw [rotr64, if_neg hgt.ne', if_neg hgt.not_gt]

/-- R204: the halves of a rotation are neighbouring slices of the lane written twice. -/
theorem rotr64_eq_slices (a : Lane) {n : Nat} (hn : n ≤ 63) :
    rotr64 a n =
      ⟨(laneValue a ++ laneValue a).extractLsb' n 32, (laneValue a ++ laneValue a).extractLsb' (n + 32) 32⟩ := by
  rw [laneValue]
  obtain hlt | hge := Nat.lt_or_ge n 32
  · rw [BitVec.extractLsb'_append_eq_of_add_le (by omega), extractLsb'_twice_middle _ _ (by omega) (by omega),
      Nat.add_sub_cancel, ← shiftPair_eq_extractLsb' _ _ hlt.le, ← shiftPair_eq_extractLsb' _ _ hlt.le, rotr64,
      if_neg hlt.ne, if_pos hlt]
  · have hback : n + 32 - (32 + 32) = n - 32 := by omega
    rw [extractLsb'_twice_middle _ _ hge (by omega), BitVec.extractLsb'_append_eq_of_le (start := n + 32) (by omega),
      hback, ← shiftPair_eq_extractLsb' _ _ (by omega), ← shiftPair_eq_extractLsb' _ _ (by omega), rotr64_of_ge a hge]

/-- R209: `ROTR64` is rotation of the 64-bit value. -/
theorem laneValue_rotr64 (a : Lane) {n : Nat} (hn : n ≤ 63) : laneValue (rotr64 a n) = Native.rotr (laneValue a) n := by
  rw [Native.rotr, shiftPair_eq_extractLsb' _ _ (by omega), rotr64_eq_slices a hn]
  exact BitVec.extractLsb'_append_extractLsb'_eq_extractLsb' rfl

end Sys2Proof.Machine
end

section
/-!
The mixing core over native lanes (spec/42_mixing.md R182 to R184, 41_compression.md R168): taking the 64-bit lanes of the
working vector commutes with a lane written, and so with a G call, a round and the twelve rounds.
-/

namespace Sys2Proof.Machine

theorem wordLanes_getElem (w : Vector Half 32) (i : Nat) (hi : i < 16) :
    (Native.wordLanes w)[i] = w[2 * i + 1] ++ w[2 * i] :=
  Vector.getElem_ofFn _

theorem wordLanes_getElem_eq_laneValue (w : Vector Half 32) (i : Fin 16) :
    (Native.wordLanes w)[i.val] = laneValue (laneAt w i) :=
  wordLanes_getElem w i.val i.isLt

theorem wordLanes_setLane (w : Vector Half 32) (i : Fin 16) (x : Lane) :
    Native.wordLanes (setLane w i x) = (Native.wordLanes w).set i.val (laneValue x) := by
  ext1 j hj
  rw [Vector.getElem_set, wordLanes_getElem_eq_laneValue _ ⟨j, hj⟩, wordLanes_getElem_eq_laneValue _ ⟨j, hj⟩,
    laneAt_setLane, apply_ite laneValue]
  simp only [Fin.ext_iff]

/-- R182: each of the eight steps writes the lane that the native step writes. -/
theorem wordLanes_mixG (a b c d : Fin 16) (x y : Lane) (v : Working) :
    Native.wordLanes (mixG a b c d x y v) = Native.mixG a b c d (laneValue x) (laneValue y) (Native.wordLanes v) := by
  simp only [mixG, Native.mixG, wordLanes_setLane, laneValue_add64, laneValue_xor64, laneValue_rotr64, Nat.reduceLeDiff,
    ← wordLanes_getElem_eq_laneValue]

/-- R183: the eight G calls in turn. -/
theorem wordLanes_mixRound (r : Fin 12) (m : Block) (v : Working) :
    Native.wordLanes (mixRound r m v) = Native.mixRound r (Native.wordLanes m) (Native.wordLanes v) := by
  simp only [mixRound, List.foldl_cons, List.foldl_nil, gCall, wordLanes_mixG, ← wordLanes_getElem_eq_laneValue]
  rfl

theorem wordLanes_allRounds (m : Block) (v : Working) :
    Native.wordLanes (allRounds m v) = Native.allRounds (Native.wordLanes m) (Native.wordLanes v) :=
  (List.foldl_hom Native.wordLanes fun v r => (wordLanes_mixRound r m v).symm).symm

end Sys2Proof.Machine
end

section
/-!
Seeding (spec/41_compression.md R160, R163, R167): the words of the seeded working vector, first without the flag, which
complements lane 14 alone.
-/

namespace Sys2Proof.Machine

section
variable (h : Chain) (t : BitVec 128) (last : Bool)

/-- R160: the words that neither the counter nor the flag reaches, and those of the flag while it is not set. -/
theorem seedWorking_false_getElem (i : Nat) (hi : i < 32) (hcounter : i < 24 ∨ 28 ≤ i) :
    (seedWorking h t false)[i] = if hi : i < 16 then h[i] else iv32[i - 16] := by
  have h24 : 24 ≠ i := by omega
  have h25 : 25 ≠ i := by omega
  have h26 : 26 ≠ i := by omega
  have h27 : 27 ≠ i := by omega
  simp only [seedWorking, Bool.false_eq_true, if_false, Vector.getElem_set, h24, h25, h26, h27, Vector.getElem_ofFn]

/-- R163: the flag complements lane 14. -/
theorem seedWorking_true :
    seedWorking h t true = setLane (seedWorking h t false) 14 (not64 (laneAt (seedWorking h t false) 14)) := rfl

/-- R163: the flag leaves the other lanes. -/
theorem seedWorking_getElem_of_ne_flag (i : Nat) (hi : i < 32) (h28 : 28 ≠ i) (h29 : 29 ≠ i) :
    (seedWorking h t last)[i] = (seedWorking h t false)[i] := by
  cases last with
  | false => rfl
  | true =>
    rw [seedWorking_true]
    exact (Vector.getElem_set_ne _ _ h29).trans (Vector.getElem_set_ne _ _ h28)

/-- R160: words 0 to 15. -/
theorem seedWorking_chain (i : Fin 16) : (seedWorking h t last)[i.val] = h[i.val] := by
  rw [seedWorking_getElem_of_ne_flag _ _ _ _ _ (by omega) (by omega), seedWorking_false_getElem _ _ _ _ (by omega),
    dif_pos i.isLt]

/-- R160: words 16 to 23, 30 and 31. -/
theorem seedWorking_iv (j : Fin 16) (hj : j.val < 8 ∨ 14 ≤ j.val) : (seedWorking h t last)[16 + j.val] = iv32[j.val] := by
  rw [seedWorking_getElem_of_ne_flag _ _ _ _ _ (by omega) (by omega), seedWorking_false_getElem _ _ _ _ (by omega),
    dif_neg (by omega)]
  simp only [Nat.add_sub_cancel_left]

/-- R160: words 24 to 27 take the four slices of the counter, least significant first. -/
theorem seedWorking_counter (k : Fin 4) :
    (seedWorking h t last)[24 + k.val] = iv32[8 + k.val] ^^^ counterSlice t k.val := by
  rw [seedWorking_getElem_of_ne_flag _ _ _ _ _ (by omega) (by omega)]
  fin_cases k <;> simp [seedWorking, counterSlice]

/-- R163: lane 14, words 28 and 29. -/
theorem laneAt_seedWorking_flag :
    laneAt (seedWorking h t last) 14 = if last then not64 ⟨iv32[12], iv32[13]⟩ else ⟨iv32[12], iv32[13]⟩ := by
  have hfalse : laneAt (seedWorking h t false) 14 = ⟨iv32[12], iv32[13]⟩ :=
    congrArg₂ Lane.mk (seedWorking_false_getElem h t 28 (by omega) (by omega))
      (seedWorking_false_getElem h t 29 (by omega) (by omega))
  cases last with
  | false => exact hfalse
  | true => rw [seedWorking_true, laneAt_setLane, if_pos rfl, hfalse, if_pos rfl]

/-- R36: a counter that ends below a slice. -/
theorem counterSlice_eq_zero {k : Nat} (ht : t.toNat < 2 ^ (32 * k)) : counterSlice t k = 0#32 := by
  rw [counterSlice_eq_ofNat, Nat.div_eq_of_lt ht]

/-- R160: "For every counter below 2^64 ... lane 13 is left unchanged". -/
theorem seedWorking_counter_of_lt (k : Fin 4) (ht : t.toNat < 2 ^ (32 * k.val)) :
    (seedWorking h t last)[24 + k.val] = iv32[8 + k.val] := by
  rw [seedWorking_counter, counterSlice_eq_zero t ht, BitVec.xor_zero]

end

/-- Settles O14: the words of the chaining state, of IV32, of the counter's slices and of the flag's lane. -/
theorem seedPlacesCounterAndFlag : Obligations.SeedPlacesCounterAndFlag := by
  intro h t last
  have hflag := laneAt_seedWorking_flag h t last
  refine ⟨seedWorking_chain h t last, fun i => seedWorking_iv h t last ⟨i.val, by omega⟩ (.inl i.isLt),
    seedWorking_counter h t last 0, seedWorking_counter h t last 1, seedWorking_counter h t last 2,
    seedWorking_counter h t last 3, (congrArg Lane.lo hflag).trans (apply_ite ..),
    (congrArg Lane.hi hflag).trans (apply_ite ..), seedWorking_iv h t last 14 (by decide),
    seedWorking_iv h t last 15 (by decide), fun ht => ⟨?word26, ?word27⟩⟩
  case word26 => exact seedWorking_counter_of_lt h t last 2 ht
  case word27 => exact seedWorking_counter_of_lt h t last 3 (ht.trans (by decide))

/-- Settles O15: a counter below 2^53 is below 2^64, and slice 1 of it is its quotient by 2^32. -/
theorem counterPlacementBelow2Pow53 : Obligations.CounterPlacementBelow2Pow53 := by
  intro h t last ht
  obtain ⟨_, _, h24, h25, _, _, _, _, _, _, hsmall⟩ := seedPlacesCounterAndFlag h t last
  obtain ⟨h26, h27⟩ := hsmall (by omega)
  rw [← counterSlice_eq_ofNat t 1]
  exact ⟨h24, h25, h26, h27⟩

end Sys2Proof.Machine
end

section
/-!
The compression over native lanes (spec/41_compression.md R160 to R164, R168): its seed, its message lanes, its rounds and
its feed-forward are each the lanes of what the halves compute.
-/

namespace Sys2Proof.Machine

theorem chainLanes_getElem (h : Chain) (i : Nat) (hi : i < 8) : (Native.chainLanes h)[i] = h[2 * i + 1] ++ h[2 * i] :=
  Vector.getElem_ofFn _

/-- R180: IV32 is IV in halves, low half first. -/
theorem native_iv_getElem (i : Nat) (hi : i < 8) : Native.iv[i] = iv32[2 * i + 1] ++ iv32[2 * i] := by
  have hiv : Native.chainLanes iv32 = Native.iv := by decide
  rw [← hiv, chainLanes_getElem]

section
variable (h : Vector Native.Lane64 8) (t : BitVec 128) (last : Bool)

theorem native_seedWorking_chain (i : Nat) (hi : i < 8) : (Native.seedWorking h t last)[i] = h[i] := by
  interval_cases i <;> rfl

theorem native_seedWorking_iv (j : Nat) (hj : j < 4) : (Native.seedWorking h t last)[8 + j] = Native.iv[j] := by
  interval_cases j <;> rfl

end

/-- R160, R168: the two seeds agree, lane by lane. -/
theorem wordLanes_seedWorking (h : Chain) (t : BitVec 128) (last : Bool) :
    Native.wordLanes (seedWorking h t last) = Native.seedWorking (Native.chainLanes h) t last := by
  obtain ⟨hchain, hiv, h24, h25, h26, h27, _, _, h30, h31, _⟩ := seedPlacesCounterAndFlag h t last
  have slices (k : Nat) : t.extractLsb' (k + 32) 32 ++ t.extractLsb' k 32 = t.extractLsb' k 64 :=
    BitVec.extractLsb'_append_extractLsb'_eq_extractLsb' rfl
  ext1 i hi
  rw [wordLanes_getElem]
  obtain hi8 | ⟨j, rfl⟩ := (Nat.lt_or_ge i 8).imp_right Nat.exists_eq_add_of_le
  · rw [native_seedWorking_chain _ _ _ _ hi8, chainLanes_getElem, ← hchain ⟨2 * i, by omega⟩,
      ← hchain ⟨2 * i + 1, by omega⟩]
  obtain hj4 | ⟨k, rfl⟩ := (Nat.lt_or_ge j 4).imp_right Nat.exists_eq_add_of_le
  · rw [native_seedWorking_iv _ _ _ _ hj4, native_iv_getElem, ← hiv ⟨2 * j, by omega⟩, ← hiv ⟨2 * j + 1, by omega⟩]
    simp only [Nat.mul_add, Nat.reduceMul, Nat.add_assoc]
  have hk : k < 4 := by omega
  interval_cases k
  · change (seedWorking h t last)[25] ++ (seedWorking h t last)[24] = Native.iv[4] ^^^ t.extractLsb' 0 64
    rw [h24, h25, ← BitVec.xor_append, native_iv_getElem, slices 0]
  · change (seedWorking h t last)[27] ++ (seedWorking h t last)[26] = Native.iv[5] ^^^ t.extractLsb' 64 64
    rw [h26, h27, ← BitVec.xor_append, native_iv_getElem, slices 64]
  · change laneValue (laneAt (seedWorking h t last) 14) =
      if last then Native.iv[6] ^^^ BitVec.allOnes 64 else Native.iv[6]
    rw [laneAt_seedWorking_flag, apply_ite laneValue, laneValue_not64, BitVec.xor_allOnes, native_iv_getElem]
    rfl
  · change (seedWorking h t last)[31] ++ (seedWorking h t last)[30] = Native.iv[7]
    rw [h30, h31, native_iv_getElem]

/-- R62: the lanes of the message block are the native message lanes. -/
theorem wordLanes_loadBlock (b : Buffer) : Native.wordLanes (loadBlock b) = Native.blockLanes b := by
  ext1 i hi
  rw [wordLanes_getElem_eq_laneValue _ ⟨i, hi⟩, laneValue_loadBlock, Native.blockLanes, Vector.getElem_ofFn]

/-- R184: the working vector after the 96 G calls is that of the twelve rounds. -/
theorem compressed_v (h : Chain) (b : Buffer) (t : BitVec 128) (last : Bool) :
    (Engine.compressed h b t last).v = allRounds (loadBlock b) (seedWorking h t last) := by
  unfold Engine.compressed
  rw [show 96 = 8 * (11 : Fin 12).val + 8 by rfl, ticks_add, ticks_rounds, ticks_round]
  rfl

/-- R164: the feed-forward, lane by lane. -/
theorem chainLanes_feedForward (h : Chain) (v : Working) (i : Nat) (hi : i < 8) :
    (Native.chainLanes (feedForward h v))[i] =
      (Native.chainLanes h)[i] ^^^ (Native.wordLanes v)[i] ^^^ (Native.wordLanes v)[i + 8] := by
  have hword (j : Nat) (hj : j < 16) : (feedForward h v)[j] = h[j] ^^^ v[j] ^^^ v[j + 16] := Vector.getElem_ofFn _
  simp only [chainLanes_getElem, wordLanes_getElem, hword, Nat.mul_add, Nat.reduceMul, Nat.add_right_comm]
  rw [← BitVec.xor_append, ← BitVec.xor_append]

/-- Settles O16, from the seeds, the message lanes, the rounds and the feed-forward. -/
theorem compressionAgreesWithNative64 : Obligations.CompressionAgreesWithNative64 := by
  intro h b t last
  unfold compressChain
  ext1 i hi
  rw [chainLanes_feedForward, compressed_v, wordLanes_allRounds, wordLanes_loadBlock, wordLanes_seedWorking,
    Native.compress, Vector.getElem_ofFn]

end Sys2Proof.Machine
end

section
/-!
The G function over 64-bit values (spec/42_mixing.md R182): the eight steps on lanes are the eight steps on their values.
-/

namespace Sys2Proof.Machine

/-- R7: a lane is the lane of a value exactly if it has that value. -/
theorem eq_laneOfValue_iff {x : Lane} {z : BitVec 64} : x = laneOfValue z ↔ laneValue x = z := by
  have hvalue : laneValue (laneOfValue z) = z :=
    (BitVec.extractLsb'_append_extractLsb'_eq_extractLsb' rfl).trans BitVec.extractLsb'_eq_self
  exact ⟨fun h => h ▸ hvalue, fun h => laneValue_inj (h.trans hvalue.symm)⟩

/-- R204, R209: `ROTR64` is the rotation of the library on the lane's value. -/
theorem laneValue_rotr64_eq_rotateRight (a : Lane) {n : Nat} (hn : n ≤ 63) :
    laneValue (rotr64 a n) = (laneValue a).rotateRight n := by
  rw [laneValue_rotr64 a hn, BitVec.rotateRight_eq_rotateRightAux_of_lt (by omega)]
  rfl

/-- Settles O10: each lane after the call is one of the four lanes of `gLanes`, whose value is computed step by step. -/
theorem mixGComputesEightSteps : Obligations.MixGComputesEightSteps := by
  intro a b c d x y v hn
  have hmix := laneAt_mixG hn x y v
  obtain ⟨⟨hba, hca, hda⟩, ⟨hcb, hdb⟩, hdc⟩ : (b ≠ a ∧ c ≠ a ∧ d ≠ a) ∧ (c ≠ b ∧ d ≠ b) ∧ d ≠ c := by
    simpa [eq_comm] using hn
  simp only [eq_laneOfValue_iff]
  refine ⟨?lane_a, ?lane_b, ?lane_c, ?lane_d, ?frame⟩
  case frame =>
    intro j hj
    obtain ⟨hja, hjb, hjc, hjd⟩ : j ≠ a ∧ j ≠ b ∧ j ≠ c ∧ j ≠ d := by simpa using hj
    simp only [hmix, hja, hjb, hjc, hjd, if_false]
  all_goals
    simp only [hmix, hba, hca, hda, hcb, hdb, hdc, if_true, if_false, gLanes, laneValue_add64, laneValue_xor64,
      laneValue_rotr64_eq_rotateRight, Nat.reduceLeDiff]

end Sys2Proof.Machine
end

section
/-!
The sequencer's walk through the 96 G calls (spec/10_state.md R30, 42_mixing.md R184).
-/

namespace Sys2Proof.Machine

/-- R30: a call moves the sequencer to the next pair. -/
theorem tick_seq {e : Engine} {r : Fin 12} {i : Fin 8} (h : e.seq = some (r, i)) : e.tick.seq = nextSeq r i := by
  simp only [Engine.tick, h]

/-- R30: within a round the sequencer keeps r and walks i through 0..7. -/
theorem ticks_seq_of_round_start {e : Engine} {r : Fin 12} (he : e.seq = some (r, 0)) (i : Nat) (hi : i < 8) :
    (e.ticks i).seq = some (r, ⟨i, hi⟩) := by
  induction i with
  | zero => exact he
  | succ i ih =>
    rw [ticks_add]
    exact (tick_seq (ih (by omega))).trans (dif_pos hi)

/-- R184: eleven rounds bring the sequencer to (11, 0), and the twelfth ends the compression. -/
theorem ticks_twelve_rounds (h : Chain) (b : Buffer) (t : BitVec 128) (last : Bool) :
    (Engine.start h b t last).ticks 96 = ⟨allRounds (loadBlock b) (seedWorking h t last), loadBlock b, none⟩ := by
  rw [show 96 = 8 * (11 : Fin 12).val + 8 by rfl, ticks_add, ticks_rounds, ticks_round]
  rfl

/-- Settles O13: call 8r + i is i calls into round r, and the twelve rounds are the whole walk. -/
theorem sequencerRunsTwelveRounds : Obligations.SequencerRunsTwelveRounds := by
  refine ⟨fun h b t last => ⟨fun r i => ?_, ticks_twelve_rounds h b t last⟩, rfl, rfl⟩
  have hround := congrArg Engine.seq (ticks_rounds h b t last r)
  rw [ticks_add]
  exact ticks_seq_of_round_start hround i.val i.isLt

end Sys2Proof.Machine
end

section
/-!
The word-pair arithmetic (spec/43_word_pair_arith.md R200 to R209): the laws of `ADD64` on lanes, which are those of its
64-bit values, and the half-level forms of the four rotations of G.
-/

namespace Sys2Proof.Machine

/-- Settles O7, from the value of each operation's result. -/
theorem halvesAgreeWithNative64 : Obligations.HalvesAgreeWithNative64 :=
  fun a b => ⟨laneValue_add64 a b, laneValue_xor64 a b, laneValue_not64 a, fun _ _ hn => laneValue_rotr64 a hn⟩

theorem add64_comm (a b : Lane) : add64 a b = add64 b a :=
  laneValue_inj (by rw [laneValue_add64, laneValue_add64, BitVec.add_comm])

theorem add64_assoc (a b x : Lane) : add64 (add64 a b) x = add64 a (add64 b x) :=
  laneValue_inj (by simp only [laneValue_add64, BitVec.add_assoc])

/-- Settles O8: a lane is determined by its value, so lanes inherit the laws of addition mod 2^64. -/
theorem threeOperandAddition : Obligations.ThreeOperandAddition := by
  refine ⟨fun a b x => ⟨?value, add64_assoc a b x, add64_comm a b⟩, by decide⟩
  case value => rw [laneValue_add64, laneValue_add64]

/-- R204 for the rotations that keep each half's place. -/
theorem rotr64_of_lt (a : Lane) {n : Nat} (hn : n < 32) :
    rotr64 a n = ⟨a.lo >>> n ||| a.hi <<< (32 - n), a.hi >>> n ||| a.lo <<< (32 - n)⟩ := by
  rw [rotr64, if_neg hn.ne, if_pos hn]

/-- R205: rotation by 32 swaps the halves. -/
theorem rotr64_thirtyTwo (a : Lane) : rotr64 a 32 = ⟨a.hi, a.lo⟩ := if_pos rfl

/-- R208: rotation right by 63 is rotation left by 1. -/
theorem rotr64_sixtyThree (a : Lane) :
    rotr64 a 63 = ⟨a.lo <<< 1 ||| a.hi >>> 31, a.hi <<< 1 ||| a.lo >>> 31⟩ := by
  rw [rotr64_of_ge a (by decide), BitVec.or_comm (a.lo <<< 1), BitVec.or_comm (a.hi <<< 1)]

/-- Settles O9: each amount picks its branch of R204, and the rules' examples are computed. -/
theorem rotationForms : Obligations.RotationForms := by
  refine ⟨fun lo hi => ?forms, by decide⟩
  exact ⟨rotr64_thirtyTwo _, rotr64_of_lt _ (by decide), rotr64_of_lt _ (by decide), rotr64_sixtyThree _⟩

end Sys2Proof.Machine
end

section
/-!
Words that are no command (spec/30_encoding.md R99, 60_exceptions.md R223): a row is matched by its OP and zeros in the field
it reserves, so the words that match no row are those with an unassigned OP or a reserved bit set.
-/

namespace Sys2Proof.Machine

open Claims

/-- R97: a row's pattern lies inside its mask. -/
theorem pattern_and_mask {r : OpRow} (hr : r ∈ opRows) : r.pattern &&& r.mask = r.pattern := by fin_cases hr <;> decide

/-- R97: a word that agrees with the row's pattern in OP and in the reserved field, which hold all of the mask's bits, matches
the row. -/
theorem masked_eq_of_fields {r : OpRow} (hr : r ∈ opRows) {start len : Nat}
    (hcover : ∀ i : Fin 32, r.mask.getLsbD i = true → 28 ≤ i.val ∨ start ≤ i.val ∧ i.val < start + len) {w : Word}
    (hop : fieldOp w = fieldOp r.pattern) (hfield : w.extractLsb' start len = r.pattern.extractLsb' start len) :
    w &&& r.mask = r.pattern := by
  have agree {start len : Nat} (h : w.extractLsb' start len = r.pattern.extractLsb' start len) {i : Nat}
      (hlo : start ≤ i) (hhi : i < start + len) : w.getLsbD i = r.pattern.getLsbD i := by
    have hbit := congrArg (BitVec.getLsbD · (i - start)) h
    simpa [show i - start < len by omega, show start + (i - start) = i by omega] using hbit
  rw [← pattern_and_mask hr]
  refine BitVec.eq_of_getLsbD_eq fun i hi => ?_
  rw [BitVec.getLsbD_and, BitVec.getLsbD_and]
  cases hm : r.mask.getLsbD i with
  | false => rw [Bool.and_false, Bool.and_false]
  | true =>
    rcases hcover ⟨i, hi⟩ hm with hlo | ⟨hlo, hhi⟩
    · rw [agree hop hlo hi]
    · rw [agree hfield hlo hhi]

/-- R97: among the words with a row's OP, those that do not match the row have a bit set in the one field it reserves. -/
theorem masked_ne_iff_reserved {r : OpRow} (hr : r ∈ opRows) {w : Word} (hop : fieldOp w = fieldOp r.pattern) (start len : Nat)
    (hmask : r.mask.extractLsb' start len = BitVec.allOnes len := by decide)
    (hzero : r.pattern.extractLsb' start len = 0 := by decide)
    (hcover : ∀ i : Fin 32, r.mask.getLsbD i = true → 28 ≤ i.val ∨ start ≤ i.val ∧ i.val < start + len := by decide) :
    w &&& r.mask ≠ r.pattern ↔ w.extractLsb' start len ≠ 0 :=
  not_congr ⟨fun h => (field_of_masked_eq h hmask).trans hzero, fun h => masked_eq_of_fields hr hcover hop (h.trans hzero.symm)⟩

/-- R223: among the words with a row's OP, the illegal ones are those that do not match the row. -/
theorem illegal_iff_masked_ne {r : OpRow} (hr : r ∈ opRows) {w : Word} (hop : fieldOp w = fieldOp r.pattern) :
    illegal w ↔ w &&& r.mask ≠ r.pattern := by
  have hrow := hr
  fin_cases hr
  · rw [masked_ne_iff_reserved hrow hop 17 7, illegal, show fieldOp w = 1 from hop]; simp
  · rw [masked_ne_iff_reserved hrow hop 8 16, illegal, show fieldOp w = 2 from hop]; simp
  · rw [masked_ne_iff_reserved hrow hop 8 16, illegal, show fieldOp w = 3 from hop]; simp
  · rw [masked_ne_iff_reserved hrow hop 0 24, illegal, show fieldOp w = 4 from hop]; simp
  · rw [masked_ne_iff_reserved hrow hop 8 16, illegal, show fieldOp w = 5 from hop]; simp
  · rw [masked_ne_iff_reserved hrow hop 0 24, illegal, show fieldOp w = 6 from hop]; simp
  · rw [masked_ne_iff_reserved hrow hop 8 16, illegal, show fieldOp w = 7 from hop]; simp

/-- R97: an OP is unassigned, or that of a row. -/
theorem op_unassigned_or_row :
    ∀ op : BitVec 4, op = 0 ∨ 8 ≤ op.toNat ∨ op ∈ opRows.map fun r => fieldOp r.pattern := by
  decide

/-- R223: an illegal word matches no row: the row would have its OP. -/
theorem masked_ne_of_illegal {w : Word} (h : illegal w) : ∀ r ∈ opRows, w &&& r.mask ≠ r.pattern := fun r hr hmatch =>
  (illegal_iff_masked_ne hr (fieldOp_of_matches hr ((matches_iff r w).mpr hmatch))).mp h hmatch

/-- R223: every other word matches the row of its OP. -/
theorem masked_eq_of_not_illegal {w : Word} (h : ¬ illegal w) : ∃ r ∈ opRows, w &&& r.mask = r.pattern := by
  rcases op_unassigned_or_row (fieldOp w) with hop | hop | hop
  · exact absurd (.inl hop) h
  · exact absurd (.inr (.inl hop)) h
  · obtain ⟨r, hr, hop⟩ := List.mem_map.mp hop
    exact ⟨r, hr, not_not.mp (mt (illegal_iff_masked_ne hr hop.symm).mpr h)⟩

/-- Settles O5: an illegal word matches no row of the table, and every other word decodes to the command of the row it
matches. -/
theorem illegalWordsRejected : Obligations.IllegalWordsRejected := by
  refine fun w s => ⟨fun h => acceptWord_of_no_match s (masked_ne_of_illegal h), fun h => ?_⟩
  obtain ⟨r, hr, hmatch⟩ := masked_eq_of_not_illegal h
  have hdec := (masked_eq_iff_decode hr w).mp hmatch
  exact ⟨r.build w, hdec, by rw [acceptWord, hdec]⟩

end Sys2Proof.Machine
end

section
/-!
The one error a command word answers (spec/60_exceptions.md R220 to R226): a word to which an error applies answers the first
and writes nothing, and a word to which none applies has its effect or its reading, and answers OK.
-/

namespace Sys2Proof.Machine

open Claims

section
variable {i : Instr} {s t : State} {k : Slot} {w : Word}

/-- 00_scope.md R8: in a slot that breaks the ranges of R25 to R27 the command stops with its fault. -/
theorem exec_of_specificationError {f : Fault} (hk : s.slots[i.ctx.toNat]? = some k)
    (h : specificationError i k = some f) : exec i s = .fault f := by
  cases i with
  | keyb ctx data =>
    obtain ⟨⟨hst, hc⟩, ⟨⟩⟩ := Option.ite_none_right_eq_some.mp h
    refine (withSlot_of_some hk _).trans ?_
    rw [if_neg (not_not.mpr hst), dif_neg (by omega)]
  | updb ctx data =>
    obtain ⟨⟨hst, hc⟩, ⟨⟩⟩ := Option.ite_none_right_eq_some.mp h
    refine (withSlot_of_some hk _).trans ?_
    have hfull : k.c ≠ 128 := fun hfull => by simp [hfull] at hc
    rw [if_neg (not_not.mpr hst), if_neg hfull, dif_neg (by omega)]
  | rddig ctx idx =>
    obtain ⟨⟨hst, hidx, hnn⟩, ⟨⟩⟩ := Option.ite_none_right_eq_some.mp h
    refine (withSlot_of_some hk _).trans ?_
    rw [if_neg (not_not.mpr hst), if_neg (by omega), dif_neg (by omega)]
  | init | final | rdstat | rdcnt => cases h

/-- R225: a command that passes every check, in a slot where it is no specification error, has an effect or a reading. -/
theorem effect_or_reading_of_checks (e : Engine) (hst : stateForbids i k.st = false) (hop : operandsBad i k = false)
    (hcount : counterBad i k = false) (hspec : specificationError i k = none) :
    (∃ k' e', Effect i k e k' e') ∨ ∃ d, Reading i k d := by
  cases i with
  | init ctx kp kk nn =>
    obtain ⟨hnn, hkk⟩ := not_not.mp (mt (operandsBad_init_iff ctx kp kk nn k).mpr (Bool.eq_false_iff.mp hop))
    exact .inl ⟨_, _, .init hnn hkk⟩
  | keyb ctx data =>
    have hkeying : k.st = .keying := not_not.mp (of_decide_eq_false hst)
    have hspec : ¬ (k.st = .keying ∧ 128 ≤ k.c.toNat) := by simpa [specificationError] using hspec
    have hlt : k.c.toNat < 128 := not_le.mp fun h => hspec ⟨hkeying, h⟩
    exact .inl ⟨_, _, .keyb hlt hkeying⟩
  | updb ctx data =>
    have habsorb : k.st = .absorb := not_not.mp (of_decide_eq_false hst)
    have hspec : ¬ (k.st = .absorb ∧ 128 < k.c.toNat) := by simpa [specificationError] using hspec
    by_cases hfull : k.c = 128
    · have hpass : ¬ 2 ^ 128 - 1 < k.t.toNat + 128 := fun h => of_decide_eq_false hcount ⟨congrArg BitVec.toNat hfull, h⟩
      exact .inl ⟨_, _, .flush (by simp) habsorb hfull (Bool.eq_false_iff.mpr (mt (counterWouldPass_iff _ _).mp hpass))⟩
    · have hne : k.c.toNat ≠ 128 := fun h => hfull (BitVec.eq_of_toNat_eq h)
      have hle : ¬ 128 < k.c.toNat := fun h => hspec ⟨habsorb, h⟩
      exact .inl ⟨_, _, .stage (by omega) habsorb hfull⟩
  | final ctx =>
    have habsorb : k.st = .absorb := not_not.mp (of_decide_eq_false hst)
    exact .inl ⟨_, _, .final habsorb hcount⟩
  | rddig ctx idx =>
    have hdone : k.st = .done := not_not.mp (of_decide_eq_false hst)
    have hidx : idx.toNat < k.nn.toNat := not_le.mp (of_decide_eq_false hop)
    have hspec : ¬ (k.st = .done ∧ 64 ≤ idx.toNat ∧ idx.toNat < k.nn.toNat) := by simpa [specificationError] using hspec
    exact .inr ⟨_, .rddig (not_le.mp fun h64 => hspec ⟨hdone, h64, hidx⟩) hdone hidx⟩
  | rdstat ctx => exact .inr ⟨_, .rdstat⟩
  | rdcnt ctx idx =>
    exact .inr ⟨_, .rdcnt (of_decide_eq_false hst) (not_lt.mp (of_decide_eq_false hop))⟩

/-- R225: a command that passes every check and ends in a next state answers OK. -/
theorem exec_rsp_of_checks (hk : s.slots[i.ctx.toNat]? = some k) (hst : stateForbids i k.st = false)
    (hop : operandsBad i k = false) (hcount : counterBad i k = false) (h : exec i s = .next t) :
    ∃ d, t.rsp = some ⟨.ok, d⟩ := by
  cases hspec : specificationError i k with
  | some f =>
    rw [exec_of_specificationError hk hspec] at h
    cases h
  | none =>
    rcases effect_or_reading_of_checks s.engine hst hop hcount hspec with ⟨k', e', heffect⟩ | ⟨d, hread⟩
    · rw [exec_of_effect hk heffect] at h
      cases h
      exact ⟨0, rfl⟩
    · rw [exec_of_reading hk hread] at h
      cases h
      exact ⟨d, rfl⟩

/-- R225 step 1: a word that is no command. -/
theorem firstError_of_undecoded {e : DecodeError} (h : decode w = .error e) : firstError w s = .illegalCommand := by
  rw [firstError, h]

/-- R225 step 2: a slot that does not exist. -/
theorem firstError_of_missing (h : decode w = .ok i) (hk : s.slots[i.ctx.toNat]? = none) :
    firstError w s = .invalidParameter := by
  simp only [firstError, h, hk]

/-- R225 steps 3 to 5: on a slot that exists, its state comes first, then the operands, then the counter. -/
theorem firstError_of_slot (h : decode w = .ok i) (hk : s.slots[i.ctx.toNat]? = some k) :
    firstError w s = if stateForbids i k.st then .invalidState else if operandsBad i k then .invalidParameter
      else if counterBad i k then .counterRange else .ok := by
  simp only [firstError, h, hk]

/-- R225, R226: where an error applies to a word, accepting it answers the first one with DATA 0 and writes nothing. -/
theorem acceptWord_of_firstError (h : firstError w s ≠ .ok) : acceptWord w s = .next (answered s (firstError w s) 0) := by
  rcases acceptWord_cases w s with ⟨e, hdec, hacc⟩ | ⟨i, hdec, hacc⟩
  · rw [hacc, firstError_of_undecoded hdec]
    rfl
  · rw [hacc]
    cases hk : s.slots[i.ctx.toNat]? with
    | none =>
      rw [firstError_of_missing hdec hk]
      exact exec_no_slot hk
    | some k =>
      rw [firstError_of_slot hdec hk] at h ⊢
      split_ifs at h ⊢ with hst hop hcount
      · exact exec_of_stateForbids hk hst
      · exact exec_of_operandsBad hk (Bool.eq_false_iff.mpr hst) hop
      · exact exec_of_counterBad hk (Bool.eq_false_iff.mpr hst) hcount
      · exact absurd rfl h

/-- R225: where no error applies to a word and accepting it ends in a next state, it answers OK. -/
theorem acceptWord_rsp_of_no_error (h : firstError w s = .ok) (hacc : acceptWord w s = .next t) :
    ∃ d, t.rsp = some ⟨.ok, d⟩ := by
  rcases acceptWord_cases w s with ⟨e, hdec, _⟩ | ⟨i, hdec, hexec⟩
  · rw [firstError_of_undecoded hdec] at h
    cases h
  · cases hk : s.slots[i.ctx.toNat]? with
    | none =>
      rw [firstError_of_missing hdec hk] at h
      cases h
    | some k =>
      rw [firstError_of_slot hdec hk] at h
      split_ifs at h with hst hop hcount
      exact exec_rsp_of_checks hk (Bool.eq_false_iff.mpr hst) (Bool.eq_false_iff.mpr hop) (Bool.eq_false_iff.mpr hcount)
        (hexec ▸ hacc)

/-- R225, R226: an accepted word answers the first error and nothing else changes, or none applies and it answers OK. -/
theorem acceptWord_next (h : acceptWord w s = .next t) :
    (firstError w s ≠ .ok ∧ t = answered s (firstError w s) 0) ∨ (firstError w s = .ok ∧ ∃ d, t.rsp = some ⟨.ok, d⟩) := by
  by_cases hok : firstError w s = .ok
  · exact .inr ⟨hok, acceptWord_rsp_of_no_error hok h⟩
  · rw [acceptWord_of_firstError hok] at h
    cases h
    exact .inl ⟨hok, rfl⟩

/-- R225, R226: the response an accepted word leaves. -/
theorem acceptWord_rsp (h : acceptWord w s = .next t) :
    ∃ d, t.rsp = some ⟨firstError w s, d⟩ ∧ (firstError w s ≠ .ok → d = 0) := by
  rcases acceptWord_next h with ⟨_, rfl⟩ | ⟨hok, d, hr⟩
  · exact ⟨0, rfl, fun _ => rfl⟩
  · exact ⟨d, hok ▸ hr, fun he => absurd hok he⟩

end

/-- Settles O31: a word that answers OK leaves no error, and the others only answer. -/
theorem errorsWriteNothing : Obligations.ErrorsWriteNothing := by
  intro w s t r hacc hr herr
  rcases acceptWord_next hacc with ⟨_, rfl⟩ | ⟨_, d, hok⟩
  · obtain rfl := Option.some.inj hr
    exact ⟨rfl, rfl⟩
  · obtain rfl := Option.some.inj (hok.symm.trans hr)
    exact absurd rfl herr

/-- Settles O32, from the response an accepted word leaves. -/
theorem firstErrorReported : Obligations.FirstErrorReported := by
  intro w s t hacc
  obtain ⟨d, hr, _⟩ := acceptWord_rsp hacc
  exact ⟨_, hr, rfl⟩

/-- R220: the codes 5 to 15 are not used. -/
theorem code_le_four (e : ErrorCode) : e.code.toNat ≤ 4 := by cases e <;> decide

/-- R220: different errors have different codes. -/
theorem code_eq_iff (e f : ErrorCode) : e.code = f.code ↔ e = f := by
  cases e <;> cases f <;> decide

/-- R102, R220: rsp_err shows the code of the pending error. -/
theorem rspErr_of_rsp {s : State} {r : Response} (h : s.rsp = some r) : s.rspErr = some r.err.code := by
  rw [State.rspErr, h, Option.map_some]

/-- R102, R100: rsp_data shows the pending data. -/
theorem rspData_of_rsp {s : State} {r : Response} (h : s.rsp = some r) : s.rspData = some r.data := by
  rw [State.rspData, h, Option.map_some]

/-- Settles O58: different errors have different codes, so the code of the first error tells which error it is. -/
theorem errorCodesOnThePort : Obligations.ErrorCodesOnThePort := by
  refine ⟨fun s e d h => ⟨?code, rspData_of_rsp h⟩, fun w s t hacc => ?accepted⟩
  case code => exact (rspErr_of_rsp h).trans (by cases e <;> rfl)
  case accepted =>
    obtain ⟨d, hr, hdata⟩ := acceptWord_rsp hacc
    have hcode := code_eq_iff (firstError w s)
    exact ⟨_, d, rspErr_of_rsp hr, rspData_of_rsp hr, code_le_four _, fun hc => hdata (mt (hcode .ok).mpr hc),
      hcode .ok, hcode .invalidParameter, hcode .invalidState, hcode .illegalCommand, hcode .counterRange⟩

end Sys2Proof.Machine
end

section
/-!
Decoding and encoding are inverse (spec/30_encoding.md R91 to R98): every command word is a row of fields, so the fields of
an encoded command are its operands, and a word that decodes is the row of what was read from it.
-/

namespace Sys2Proof

/-- R92: the fields of a word in format I, side by side, bits [23:17] reserved; the other formats hold zeros in more of
them. -/
def wordOfFields (op : BitVec 4) (ctx : Ctx) (kp : Bool) (kk low : Byte) : Word :=
  op ++ ctx ++ 0#7 ++ BitVec.ofBool kp ++ kk ++ low

section
variable (op : BitVec 4) (ctx : Ctx) (kp : Bool) (kk low : Byte)

@[simp] theorem fieldCtx_wordOfFields : fieldCtx (wordOfFields op ctx kp kk low) = ctx := by
  unfold fieldCtx wordOfFields
  simp (disch := decide) only [BitVec.extractLsb'_append_eq_of_le, Nat.reduceSub, BitVec.extractLsb'_append_eq_right]

@[simp] theorem fieldKp_wordOfFields : fieldKp (wordOfFields op ctx kp kk low) = kp := by
  unfold fieldKp wordOfFields
  simp only [BitVec.getLsbD_append]
  simp

@[simp] theorem fieldKk_wordOfFields : fieldKk (wordOfFields op ctx kp kk low) = kk := by
  unfold fieldKk wordOfFields
  simp (disch := decide) only [BitVec.extractLsb'_append_eq_of_le, Nat.reduceSub, BitVec.extractLsb'_append_eq_right]

@[simp] theorem fieldLow_wordOfFields : fieldLow (wordOfFields op ctx kp kk low) = low := by
  unfold fieldLow wordOfFields
  simp (disch := decide) only [BitVec.extractLsb'_append_eq_right]

/-- The row of fields as the encoder makes it, each field shifted to its place. -/
theorem wordOfFields_eq_or :
    wordOfFields op ctx kp kk low = op.setWidth 32 <<< 28 ||| (ctx.setWidth 32 <<< 24 ||| (BitVec.ofBool kp).setWidth 32 <<< 16
      ||| kk.setWidth 32 <<< 8 ||| low.setWidth 32) := by
  rw [← BitVec.setWidth_eq (x := wordOfFields op ctx kp kk low), wordOfFields]
  simp only [BitVec.setWidth_append_eq_shiftLeft_setWidth_or, BitVec.shiftLeft_or_distrib, ← BitVec.shiftLeft_add]
  simp [BitVec.or_assoc]

end

/-- A word whose bits [23:17] are 0 is the row of its fields. -/
theorem eq_wordOfFields {w : Word} (h : w.extractLsb' 17 7 = 0#7) :
    w = wordOfFields (fieldOp w) (fieldCtx w) (fieldKp w) (fieldKk w) (fieldLow w) := by
  have hkp : BitVec.ofBool (fieldKp w) = w.extractLsb' 16 1 := by
    apply BitVec.eq_of_getLsbD_eq
    simp [fieldKp]
  rw [wordOfFields, hkp, ← h, fieldOp, fieldCtx, fieldKk, fieldLow]
  simp (disch := decide) only [BitVec.extractLsb'_append_extractLsb'_eq_extractLsb']
  exact BitVec.extractLsb'_eq_self.symm

/-- A command's encoding, by its fields. -/
def Instr.fieldRow : Instr → Word
  | .init ctx kp kk nn => wordOfFields 1 ctx kp kk nn
  | .keyb ctx data => wordOfFields 2 ctx false 0 data
  | .updb ctx data => wordOfFields 3 ctx false 0 data
  | .final ctx => wordOfFields 4 ctx false 0 0
  | .rddig ctx idx => wordOfFields 5 ctx false 0 idx
  | .rdstat ctx => wordOfFields 6 ctx false 0 0
  | .rdcnt ctx idx => wordOfFields 7 ctx false 0 idx

/-- R91 to R95: the encoder puts each operand at the place of its field, and 0 in every other bit below OP. -/
theorem encode_eq_fieldRow (i : Instr) : encode i = i.fieldRow := by
  cases i <;>
    simp [encode, Instr.row, Instr.operandBits, Instr.fieldRow, wordOfFields_eq_or, rowInit, rowKeyb, rowUpdb, rowFinal,
      rowRddig, rowRdstat, rowRdcnt]

/-- R97: the encoding of a command matches its row. -/
theorem row_matches_encode (i : Instr) : i.row.matches (encode i) = true := by
  rw [matches_iff]
  cases i with
  | init => exact Laws.RowMatch.init ..
  | keyb => exact Laws.RowMatch.keyb ..
  | updb => exact Laws.RowMatch.updb ..
  | final => exact Laws.RowMatch.final ..
  | rddig => exact Laws.RowMatch.rddig ..
  | rdstat => exact Laws.RowMatch.rdstat ..
  | rdcnt => exact Laws.RowMatch.rdcnt ..

/-- R96: the operands a row reads from a command's own encoding are the command's. -/
theorem build_encode (i : Instr) : i.row.build (encode i) = i := by
  rw [encode_eq_fieldRow]
  cases i <;>
    simp [Instr.row, Instr.fieldRow, rowInit, rowKeyb, rowUpdb, rowFinal, rowRddig, rowRdstat, rowRdcnt]

/-- Settles O2: an encoded command matches its own row, which reads its operands back. -/
theorem decodeOfEncode : Obligations.DecodeOfEncode := by
  intro i
  rw [decode_of_matches (row_mem i) (row_matches_encode i), build_encode]

/-- R96, R99: a word that matches a row is the encoding of what the row reads from it: the row's mask covers the fields that
the row does not read, so they are 0. -/
theorem encode_build {r : OpRow} (hr : r ∈ opRows) {w : Word} (h : w &&& r.mask = r.pattern) : encode (r.build w) = w := by
  have hop : fieldOp w = fieldOp r.pattern := fieldOp_of_matches hr ((matches_iff r w).mpr h)
  have hreserved : w.extractLsb' 17 7 = 0#7 := by
    rw [Machine.field_of_masked_eq h (by fin_cases hr <;> decide)]
    fin_cases hr <;> decide
  have hkp (hmask : r.mask.getLsbD 16 = true) : fieldKp w = r.pattern.getLsbD 16 := by simp [← h, fieldKp, hmask]
  have hkk : r.mask.extractLsb' 8 8 = BitVec.allOnes 8 → fieldKk w = r.pattern.extractLsb' 8 8 :=
    Machine.field_of_masked_eq h
  have hlow : r.mask.extractLsb' 0 8 = BitVec.allOnes 8 → fieldLow w = r.pattern.extractLsb' 0 8 :=
    Machine.field_of_masked_eq h
  rw [encode_eq_fieldRow]
  refine Eq.trans ?_ (eq_wordOfFields hreserved).symm
  rw [hop]
  simp only [opRows, List.mem_cons, List.not_mem_nil, or_false] at hr
  rcases hr with rfl | rfl | rfl | rfl | rfl | rfl | rfl
  -- INIT reads every field
  case inl => rfl
  -- KEYB, UPDB, RDDIG and RDCNT read the slot and the low byte
  case inr.inl | inr.inr.inl | inr.inr.inr.inr.inl | inr.inr.inr.inr.inr.inr =>
    rw [hkp rfl, hkk rfl]
    rfl
  -- FINAL and RDSTAT read the slot alone
  case inr.inr.inr.inl | inr.inr.inr.inr.inr.inl =>
    rw [hkp rfl, hkk rfl, hlow rfl]
    rfl

/-- Settles O3: a word that decodes matched a row, and is the encoding of what that row read. -/
theorem encodeOfDecode : Obligations.EncodeOfDecode := by
  intro w i hdec
  obtain ⟨r, hr, hmatch, rfl⟩ := matches_of_decode hdec
  exact encode_build hr ((matches_iff r w).mp hmatch)

end Sys2Proof
end

section
/-!
The assembler (spec/30_encoding.md R110 to R114): a line other than `.word` assembles to the encodings of its commands, so
its words decode to them.
-/

namespace Sys2Proof.Machine

open Claims

/-- R110: `.word` is the one line that assembles to no commands. -/
def isRawWord : AsmLine → Bool
  | .rawWord _ => true
  | _ => false

/-- R110: a line other than `.word` assembles to the words of its commands, where it is well formed. -/
theorem assemble_eq {line : AsmLine} (h : isRawWord line = false) :
    assemble line = if line.wellFormed then some ((asmCommands line).map encode) else none := by
  cases line with
  | rawWord w => cases h
  | _ => rfl

/-- The words of commands decode to them. -/
theorem map_decode_map_encode (cmds : List Instr) : (cmds.map encode).map decode = cmds.map .ok := by
  rw [List.map_map]
  exact List.map_congr_left fun i _ => decodeOfEncode i

/-- R110: a line is an error where its operands pass their fields, and otherwise its words decode to its commands. -/
theorem assembles_commands {line : AsmLine} (hline : isRawWord line = false) {bounds : Prop}
    {cmds : List Instr} (hbounds : line.wellFormed = true ↔ bounds) (hcmds : asmCommands line = cmds) :
    assembles line bounds cmds := by
  subst hcmds
  constructor
  · intro h
    rw [assemble_eq hline, if_neg (mt hbounds.mp h)]
  · intro h
    rw [assemble_eq hline, if_pos (hbounds.mpr h)]
    exact ⟨_, rfl, map_decode_map_encode _⟩

theorem fitsCtx_iff (n : Nat) : fitsCtx n = true ↔ n ≤ 15 := decide_eq_true_iff

theorem fitsByte_iff (n : Nat) : fitsByte n = true ↔ n ≤ 255 := decide_eq_true_iff

/-- Settles O6: the bounds are the line's well-formedness, and the commands are those of its expansion. -/
theorem assembledLinesDecode : Obligations.AssembledLinesDecode := by
  refine ⟨fun c n => ?init, fun c n k => ?initKey, fun c x => ?keyb, fun c x => ?updb, fun c => ?final, fun c x => ?rddig,
    fun c => ?rdstat, fun c x => ?rdcnt, fun c xs => ?update, fun c ks => ?key, fun c n => ?digest, fun c n xs => ?hash,
    fun c n ks xs => ?hashKey, fun w => ?rawWord⟩
  case rawWord =>
    have hwf : (AsmLine.rawWord w).wellFormed = true ↔ w < 2 ^ 32 := decide_eq_true_iff
    exact ⟨fun h => if_neg (mt hwf.mp h), fun h => if_pos (hwf.mpr h)⟩
  all_goals
    refine assembles_commands rfl ?bounds ?cmds
    case bounds => simp [AsmLine.wellFormed, fitsCtx_iff, fitsByte_iff, and_assoc]
    case cmds => simp [asmCommands, hashCmds, initCmd, keyCmds, updateCmds, digestCmds, asBytes, Function.comp_def]

end Sys2Proof.Machine
end

section
/-!
G calls and rounds as functions on the working vector (spec/42_mixing.md R186, R187). A G call is eight writes of one lane
each; every write can be undone, because the new lane is a one-to-one function of the old one, given the other lanes. Two G
calls on disjoint lanes commute.
-/

namespace Sys2Proof.Machine

/-- Writing lane i as `f v x`, x being its old value, is one-to-one where f reads no bit of lane i from v and is one-to-one
in x. -/
theorem setLane_injective {i : Fin 16} {f : Working → Lane → Lane}
    (hread : ∀ v w : Working, (∀ j, j ≠ i → laneAt v j = laneAt w j) → f v = f w)
    (hf : ∀ v, Function.Injective (f v)) :
    Function.Injective fun v => setLane v i (f v (laneAt v i)) := by
  intro v w h
  have hlane (j : Fin 16) := congrArg (laneAt · j) h
  simp only [laneAt_setLane] at hlane
  have hother (j : Fin 16) (hj : j ≠ i) : laneAt v j = laneAt w j := by simpa [hj.symm] using hlane j
  have hself : f v (laneAt v i) = f w (laneAt w i) := by simpa using hlane i
  rw [hread v w hother] at hself
  refine ext_of_lanes fun j => ?_
  by_cases hj : j = i
  · rw [hj]
    exact hf w hself
  · exact hother j hj

/-- R201: adding a lane can be undone. -/
theorem add64_left_injective (b : Lane) : Function.Injective (add64 · b) := by
  intro x y h
  have hvalue : laneValue x + laneValue b = laneValue y + laneValue b := by
    rw [← laneValue_add64, ← laneValue_add64]
    exact congrArg laneValue h
  exact laneValue_inj ((BitVec.add_left_inj _).mp hvalue)

/-- R202: an XOR can be undone. -/
theorem xor64_left_injective (b : Lane) : Function.Injective (xor64 · b) := by
  intro x y h
  have hvalue : laneValue x ^^^ laneValue b = laneValue y ^^^ laneValue b := by
    rw [← laneValue_xor64, ← laneValue_xor64]
    exact congrArg laneValue h
  exact laneValue_inj ((BitVec.xor_left_inj _).mp hvalue)

/-- A rotation by less than the width can be undone: bit i comes to stand n places lower, around the end. -/
theorem rotateRight_injective {w n : Nat} (hn : n < w) : Function.Injective fun x : BitVec w => x.rotateRight n := by
  intro x y h
  have hbit (i : Nat) : (x.rotateRight n).getLsbD i = (y.rotateRight n).getLsbD i := congrArg (·.getLsbD i) h
  simp only [BitVec.getLsbD_rotateRight_of_lt hn] at hbit
  apply BitVec.eq_of_getLsbD_eq
  intro i hi
  obtain hlow | hhigh := Nat.lt_or_ge i n
  · have hplace : i + (w - n) - (w - n) = i := by omega
    have hlt : i + (w - n) < w := by omega
    simpa [hplace, hlt] using hbit (i + (w - n))
  · have hplace : n + (i - n) = i := by omega
    have hlt : i - n < w - n := by omega
    simpa [hplace, hlt] using hbit (i - n)

/-- R204: the rotation of a lane can be undone. -/
theorem rotr64_injective {n : Nat} (hn : n ≤ 63) : Function.Injective (rotr64 · n) := by
  intro x y h
  have hvalue : (laneValue x).rotateRight n = (laneValue y).rotateRight n := by
    rw [← laneValue_rotr64_eq_rotateRight x hn, ← laneValue_rotr64_eq_rotateRight y hn]
    exact congrArg laneValue h
  exact laneValue_inj (rotateRight_injective (by omega) hvalue)

section
variable (a b : Fin 16)

/-- R182 steps 1 and 5: `V(a) <- V(a) + V(b) + x`. -/
def stepAddMessage (x : Lane) (v : Working) : Working := setLane v a (add64 (add64 (laneAt v a) (laneAt v b)) x)

/-- R182 steps 3 and 7: `V(a) <- V(a) + V(b)`. -/
def stepAdd (v : Working) : Working := setLane v a (add64 (laneAt v a) (laneAt v b))

/-- R182 steps 2, 4, 6 and 8: `V(a) <- ROTR64(V(a) ^ V(b), n)`. -/
def stepXorRotate (n : Nat) (v : Working) : Working := setLane v a (rotr64 (xor64 (laneAt v a) (laneAt v b)) n)

variable {a b}

theorem stepAddMessage_injective (hab : a ≠ b) (x : Lane) : Function.Injective (stepAddMessage a b x) :=
  setLane_injective (f := fun v y => add64 (add64 y (laneAt v b)) x) (fun v w h => by simp only [h b hab.symm])
    fun v => (add64_left_injective x).comp (add64_left_injective (laneAt v b))

theorem stepAdd_injective (hab : a ≠ b) : Function.Injective (stepAdd a b) :=
  setLane_injective (f := fun v y => add64 y (laneAt v b)) (fun v w h => by simp only [h b hab.symm])
    fun v => add64_left_injective (laneAt v b)

theorem stepXorRotate_injective (hab : a ≠ b) {n : Nat} (hn : n ≤ 63) : Function.Injective (stepXorRotate a b n) :=
  setLane_injective (f := fun v y => rotr64 (xor64 y (laneAt v b)) n) (fun v w h => by simp only [h b hab.symm])
    fun v => (rotr64_injective hn).comp (xor64_left_injective (laneAt v b))

end

/-- R182: the G function is its eight steps in order. -/
theorem mixG_eq_steps (a b c d : Fin 16) (x y : Lane) :
    mixG a b c d x y =
      stepXorRotate b c 63 ∘ stepAdd c d ∘ stepXorRotate d a 16 ∘ stepAddMessage a b y ∘
        stepXorRotate b c 24 ∘ stepAdd c d ∘ stepXorRotate d a 32 ∘ stepAddMessage a b x := rfl

/-- R187: a G call on four distinct lanes can be undone, step by step from the last. -/
theorem mixG_injective {a b c d : Fin 16} (hn : [a, b, c, d].Nodup) (x y : Lane) : Function.Injective (mixG a b c d x y) := by
  obtain ⟨hab, hbc, hcd, hda⟩ : a ≠ b ∧ b ≠ c ∧ c ≠ d ∧ d ≠ a := by
    simp at hn
    tauto
  rw [mixG_eq_steps]
  exact (stepXorRotate_injective hbc (by decide)).comp <| (stepAdd_injective hcd).comp <|
    (stepXorRotate_injective hda (by decide)).comp <| (stepAddMessage_injective hab y).comp <|
    (stepXorRotate_injective hbc (by decide)).comp <| (stepAdd_injective hcd).comp <|
    (stepXorRotate_injective hda (by decide)).comp <| stepAddMessage_injective hab x

theorem gCall_injective (r : Fin 12) (m : Block) (i : Fin 8) : Function.Injective (gCall r i m) :=
  mixG_injective (quadruple_nodup i) _ _

/-- One-to-one functions one after the other are one-to-one. -/
theorem foldl_injective {α β : Type} {f : β → α → β} (hf : ∀ x, Function.Injective (f · x)) (l : List α) :
    Function.Injective fun v => l.foldl f v := by
  induction l with
  | nil => exact Function.injective_id
  | cons x l ih => exact ih.comp (hf x)

theorem allRounds_injective (m : Block) : Function.Injective (allRounds m) :=
  foldl_injective (f := fun v r => mixRound r m v)
    (fun r => foldl_injective (f := fun v i => gCall r i m v) (gCall_injective r m) _) _

/-- There are finitely many working vectors. -/
theorem finite_working : Finite Working :=
  Finite.of_injective (fun v (j : Fin 32) => v[j.val]) fun _ _ h => Vector.ext fun i hi => congrFun h ⟨i, hi⟩

/-- Settles O12: every G call can be undone, so the schedule is one-to-one, and on a finite set it is then also onto. -/
theorem scheduleIsABijection : Obligations.ScheduleIsABijection := fun m =>
  haveI := finite_working
  Finite.injective_iff_bijective.mp (allRounds_injective m)

/-- R183: the lanes of G call i. -/
def callLanes (i : Fin 8) : List (Fin 16) :=
  [quadruple[i.val].1, quadruple[i.val].2.1, quadruple[i.val].2.2.1, quadruple[i.val].2.2.2]

section
variable (r : Fin 12) (m : Block) (i : Fin 8) {j : Fin 16}

/-- R182: a G call writes its four lanes only. -/
theorem laneAt_gCall_of_not_mem (v : Working) (hj : j ∉ callLanes i) : laneAt (gCall r i m v) j = laneAt v j := by
  obtain ⟨ha, hb, hc, hd⟩ := by simpa [callLanes] using hj
  rw [gCall, laneAt_mixG (quadruple_nodup i)]
  simp only [ha, hb, hc, hd, if_false]

/-- R182: what a G call writes depends on its four lanes only. -/
theorem laneAt_gCall_congr {v w : Working} (h : ∀ l ∈ callLanes i, laneAt v l = laneAt w l) (hj : j ∈ callLanes i) :
    laneAt (gCall r i m v) j = laneAt (gCall r i m w) j := by
  obtain ⟨ha, hb, hc, hd⟩ := by simpa [callLanes] using h
  rw [gCall, gCall, laneAt_mixG (quadruple_nodup i), laneAt_mixG (quadruple_nodup i), ha, hb, hc, hd, h j hj]

/-- R186: G calls on disjoint lanes commute, since each leaves the lanes of the other. -/
theorem gCall_comm {i i' : Fin 8} (h : ∀ l ∈ callLanes i, l ∉ callLanes i') (v : Working) :
    gCall r i m (gCall r i' m v) = gCall r i' m (gCall r i m v) := by
  refine ext_of_lanes fun j => ?_
  by_cases hj : j ∈ callLanes i
  · rw [laneAt_gCall_of_not_mem r m i' _ (h j hj)]
    exact laneAt_gCall_congr r m i (fun l hl => laneAt_gCall_of_not_mem r m i' v (h l hl)) hj
  · rw [laneAt_gCall_of_not_mem r m i _ hj]
    by_cases hj' : j ∈ callLanes i'
    · exact laneAt_gCall_congr r m i' (fun l hl => (laneAt_gCall_of_not_mem r m i v fun hl' => h l hl' hl).symm) hj'
    · rw [laneAt_gCall_of_not_mem r m i' _ hj', laneAt_gCall_of_not_mem r m i' _ hj', laneAt_gCall_of_not_mem r m i _ hj]

/-- R186: calls on lanes that are pairwise disjoint may run in any order. -/
theorem foldl_gCall_perm {p q : List (Fin 8)} (hp : p.Perm q)
    (hq : ∀ i ∈ q, ∀ i' ∈ q, i ≠ i' → ∀ l ∈ callLanes i, l ∉ callLanes i') (v : Working) :
    p.foldl (fun v i => gCall r i m v) v = q.foldl (fun v i => gCall r i m v) v := by
  refine hp.foldl_eq' (fun i hi i' hi' w => ?_) v
  by_cases h : i' = i
  · rw [h]
  · exact gCall_comm r m (hq i' (hp.subset hi') i (hp.subset hi) h) w

end

/-- Settles O11: the calls of a half round are on disjoint lanes; on a vector with one bit set, in lane 3, it shows which of a
diagonal and a column call came first. -/
theorem callsOfAHalfRoundCommute : Obligations.CallsOfAHalfRoundCommute := by
  refine ⟨fun r m v p hp => foldl_gCall_perm r m hp (by decide) v, fun r m v p hp => foldl_gCall_perm r m hp (by decide) v,
    0, Vector.replicate 32 0, (Vector.replicate 32 0).set 6 1, ?_⟩
  intro h
  exact absurd (congrArg (·[0]) h) (by decide +kernel)

end Sys2Proof.Machine
end

section
/-!
What a command does to its slot, said once for the claims about all commands (spec/10_state.md R39, 20_memory.md R66,
40_context_commands.md R127): the inversion of a command that ends, seen from its slot, and what an effect keeps.
-/

namespace Sys2Proof.Machine

open Claims

section
variable (k : Slot)
@[simp] theorem completeKey_h : k.completeKey.h = k.h := by unfold Slot.completeKey; split <;> rfl
@[simp] theorem completeKey_b : k.completeKey.b = k.b := by unfold Slot.completeKey; split <;> rfl
@[simp] theorem completeKey_t : k.completeKey.t = k.t := by unfold Slot.completeKey; split <;> rfl
@[simp] theorem completeKey_nn : k.completeKey.nn = k.nn := by unfold Slot.completeKey; split <;> rfl
@[simp] theorem completeKey_kp : k.completeKey.kp = k.kp := by unfold Slot.completeKey; split <;> rfl
@[simp] theorem completeKey_kk : k.completeKey.kk = k.kk := by unfold Slot.completeKey; split <;> rfl
end

section
variable {i : Instr} {s t : State} {k k' : Slot} {e e' : Engine} {d : BitVec 32}

/-- A command that ends, seen from a slot that it names: an error and nothing written, a reading and nothing written, or its
effect. -/
theorem exec_next_slot (h : exec i s = .next t) (hk : s.slots[i.ctx.toNat]? = some k)
    (hk' : t.slots[i.ctx.toNat]? = some k') :
    (∃ err, err ≠ .ok ∧ k' = k ∧ t = s.respond err 0) ∨ (∃ d, Reading i k d ∧ k' = k ∧ t = s.respond .ok d) ∨
      (∃ e, Effect i k s.engine k' e ∧ t = wrote s i.ctx k' e) := by
  rcases exec_next h with ⟨err, herr, rfl⟩ | ⟨k₀, d, hk₀, hread, rfl⟩ | ⟨k₀, k₁, e, hk₀, heffect, rfl⟩
  · exact .inl ⟨err, herr, Option.some.inj (hk'.symm.trans hk), rfl⟩
  · obtain rfl := Option.some.inj (hk₀.symm.trans hk)
    exact .inr (.inl ⟨d, hread, Option.some.inj (hk'.symm.trans hk), rfl⟩)
  · obtain rfl := Option.some.inj (hk₀.symm.trans hk)
    have hlt : i.ctx.toNat < s.slots.length := (List.getElem?_eq_some_iff.mp hk).1
    obtain rfl : k₁ = k' := Option.some.inj ((List.getElem?_set_self hlt).symm.trans hk')
    exact .inr (.inr ⟨e, heffect, rfl⟩)

/-- R66: the commands with a reading are the reads. -/
theorem isRead_of_reading (h : Reading i k d) : isRead i = true := by cases h <;> rfl

/-- R66: a read has no effect. -/
theorem isRead_of_effect (h : Effect i k e k' e') : isRead i = false := by cases h <;> rfl

/-- A command that is no read and answers OK has had its effect. -/
theorem effect_of_ok (h : exec i s = .next t) (hread : isRead i = false) (hk : s.slots[i.ctx.toNat]? = some k)
    (hk' : t.slots[i.ctx.toNat]? = some k') (hrsp : t.rsp = some ⟨.ok, 0⟩) :
    ∃ e, Effect i k s.engine k' e ∧ t = wrote s i.ctx k' e := by
  rcases exec_next_slot h hk hk' with ⟨err, herr, _, rfl⟩ | ⟨d, hd, _, _⟩ | heffect
  · cases hrsp
    exact absurd rfl herr
  · rw [isRead_of_reading hd] at hread
    cases hread
  · exact heffect

/-- R26, R27: no effect but INIT's changes the digest length, the key flag or the key length. -/
theorem effect_lengths (h : Effect i k e k' e') (hi : isInit i = false) : k'.nn = k.nn ∧ k'.kp = k.kp ∧ k'.kk = k.kk := by
  cases h with
  | init => cases hi
  | keyb | stage | flush | final => simp

/-- R22, R24, R31, R166: no effect but INIT's and those that compress changes the chaining state, the counter or the internal
storage. -/
theorem effect_chain (h : Effect i k e k' e') (hi : isInit i = false) (hc : compresses i k = false) :
    k'.h = k.h ∧ k'.t = k.t ∧ e' = e := by
  cases h with
  | init => cases hi
  | keyb | stage => simp
  | flush _ _ hfull _ => exact absurd hfull (of_decide_eq_false hc)
  | final => cases hc

/-- R127: the slot states an effect leaves. -/
theorem effect_mayBecome (h : Effect i k e k' e') : mayBecome i k.st k'.st = true := by
  cases h with
  | @init _ kp => cases kp <;> rfl
  | keyb _ hst =>
    unfold Slot.completeKey
    split <;> simp [mayBecome, hst]
  | stage _ hst | flush _ hst | final hst => simp [mayBecome, hst]

/-- R127: a read leaves the slot's state. -/
theorem reading_mayBecome (h : Reading i k d) : mayBecome i k.st k.st = true := by
  cases h with
  | rddig _ hst => simp [mayBecome, hst]
  | rdstat => simp [mayBecome]
  | rdcnt hst => simp [mayBecome, hst]

/-- R30: an effect leaves no compression in progress. -/
theorem effect_seq (h : Effect i k e k' e') (he : e.seq = none) : e'.seq = none := by
  cases h with
  | init | keyb | stage => exact he
  | flush | final => exact compressed_seq _ _ _ _

/-- R103: the response of a command, by the first error that applies. -/
theorem exec_rsp_of_slot (h : exec i s = .next t) (hk : s.slots[i.ctx.toNat]? = some k) :
    ∃ d, t.rsp = some ⟨if stateForbids i k.st then .invalidState else if operandsBad i k then .invalidParameter
      else if counterBad i k then .counterRange else .ok, d⟩ := by
  have hacc : acceptWord (encode i) s = .next t := by rw [acceptWord, decodeOfEncode i]; exact h
  obtain ⟨d, hr, _⟩ := acceptWord_rsp hacc
  rw [firstError_of_slot (decodeOfEncode i) hk] at hr
  exact ⟨d, hr⟩

end

/-- Settles O26: a command writes only the response, its own slot and the internal storage. -/
theorem otherSlotsUntouched : Obligations.OtherSlotsUntouched := by
  intro i s t h
  rcases exec_next h with ⟨_, _, rfl⟩ | ⟨_, _, _, _, rfl⟩ | ⟨_, _, _, _, _, rfl⟩
  · exact ⟨rfl, rfl, rfl, fun _ _ => rfl⟩
  · exact ⟨rfl, rfl, rfl, fun _ _ => rfl⟩
  · exact ⟨List.length_set, rfl, rfl, fun j hj => List.getElem?_set_ne hj.symm⟩

/-- Settles O27, from the outcomes of a command on two machines that hold the same slot. -/
theorem commandReadsOnlyItsSlot : Obligations.CommandReadsOnlyItsSlot :=
  fun _ _ _ _ hslot h => exec_next_of_same_slot hslot h

/-- R65: the bytes after one is staged. -/
theorem byteAt_putByte (k : Slot) (data : Byte) (h : k.c.toNat + 1 ≤ 128) (addr : Nat) :
    (k.putByte data h).byteAt addr = if addr = k.c.toNat then some data else k.byteAt addr := by
  rw [Slot.byteAt, putByte_b, Vector.getElem?_set]
  simp only [eq_comm, Slot.byteAt]

/-- R121, R122: the commands that stage a byte put it at the staging address, and leave the other bytes. -/
theorem byteAt_of_effect {i : Instr} {data : Byte} {k k' : Slot} {e e' : Engine} (h : Effect i k e k' e')
    (hstaged : stagedByte i = some data) (addr : Nat) :
    k'.byteAt addr = if addr = stagingAddress k then some data else k.byteAt addr := by
  cases h with
  | keyb hc _ =>
    obtain rfl := Option.some.inj hstaged
    have hfull : k.c ≠ 128 := fun hfull => by simp [hfull] at hc
    rw [Slot.byteAt, completeKey_b, ← Slot.byteAt, byteAt_putByte, stagingAddress, if_neg hfull]
  | stage hc _ hfull =>
    obtain rfl := Option.some.inj hstaged
    rw [byteAt_putByte, stagingAddress, if_neg hfull]
  | flush hc _ hfull _ =>
    obtain rfl := Option.some.inj hstaged
    rw [byteAt_putByte, stagingAddress, if_pos hfull]
    rfl
  | init | final => cases hstaged

/-- R121, R122: the commands that stage a byte are no reads, nor INIT. -/
theorem kind_of_stagedByte {i : Instr} {data : Byte} (h : stagedByte i = some data) :
    isRead i = false ∧ isInit i = false := by
  cases i with
  | keyb | updb => exact ⟨rfl, rfl⟩
  | init | final | rddig | rdstat | rdcnt => cases h

/-- Settles O28, from what the effect of KEYB and UPDB does to the bytes and keeps. -/
theorem byteCommandsFrame : Obligations.ByteCommandsFrame := by
  intro i data s t k k' hstaged h hk hk' hrsp
  obtain ⟨hread, hinit⟩ := kind_of_stagedByte hstaged
  obtain ⟨e, heffect, rfl⟩ := effect_of_ok h hread hk hk' hrsp
  obtain ⟨hnn, hkp, hkk⟩ := effect_lengths heffect hinit
  have hbytes := byteAt_of_effect heffect hstaged
  exact ⟨fun addr haddr => (hbytes addr).trans (if_neg haddr), (hbytes _).trans (if_pos rfl), hnn, hkp, hkk,
    effect_chain heffect hinit⟩

/-- Settles O29: FINAL pads the buffer with zeros from the fill on. -/
theorem finalFrame : Obligations.FinalFrame := by
  intro ctx s t k k' h hk hk' hrsp
  obtain ⟨e, heffect, _⟩ := effect_of_ok (i := .final ctx) h rfl hk hk' hrsp
  obtain ⟨hnn, hkp, hkk⟩ := effect_lengths heffect rfl
  have hbytes (addr : Nat) : k'.byteAt addr = (zeroFrom k.b k.c.toNat)[addr]? := by cases heffect; rfl
  simp only [hbytes, zeroFrom_getElem?]
  refine ⟨fun addr haddr => if_pos haddr, fun addr hc haddr => ?_, hnn, hkp, hkk⟩
  rw [if_neg (by omega), if_pos haddr]

/-- Settles O30: a read has no effect, and errors and readings write the response only. -/
theorem readsChangeNoState : Obligations.ReadsChangeNoState := by
  intro i s t hread h
  rcases exec_next h with ⟨_, _, rfl⟩ | ⟨_, _, _, _, rfl⟩ | ⟨_, _, _, _, heffect, _⟩
  · exact ⟨_, rfl⟩
  · exact ⟨_, rfl⟩
  · rw [isRead_of_effect heffect] at hread
    cases hread

/-- Settles O33: the response by the first error, the slot's state by what the command did. -/
theorem slotStateMachine : Obligations.SlotStateMachine := by
  intro i s t k k' r h hk hk' hr
  refine ⟨?forbidden, ?accepted, ?rejected⟩
  case forbidden =>
    obtain ⟨d, hd⟩ := exec_rsp_of_slot h hk
    obtain rfl := Option.some.inj (hd.symm.trans hr)
    split_ifs with hst <;> simp [hst]
  all_goals
    intro herr
    rcases exec_next_slot h hk hk' with ⟨err, hne, rfl, rfl⟩ | ⟨d, hread, rfl, rfl⟩ | ⟨e, heffect, rfl⟩ <;> cases hr
  · exact absurd herr hne
  · exact reading_mayBecome hread
  · exact effect_mayBecome heffect
  · rfl
  · rfl
  · exact absurd rfl herr

/-- Settles O34: no effect but INIT's changes the lengths, and only the slot of the command is written. -/
theorem onlyInitSetsLengths : Obligations.OnlyInitSetsLengths := by
  intro i s t hinit h j
  rcases exec_next h with ⟨_, _, rfl⟩ | ⟨_, _, _, _, rfl⟩ | ⟨k, k', e, hk, heffect, rfl⟩
  · rfl
  · rfl
  · obtain ⟨hnn, hkp, hkk⟩ := effect_lengths heffect hinit
    rw [respond_slots, setSlot_slots]
    by_cases hj : i.ctx.toNat = j
    · subst hj
      rw [List.getElem?_set_self (List.getElem?_eq_some_iff.mp hk).1, hk, Option.map_some, Option.map_some, hnn, hkp, hkk]
    · rw [List.getElem?_set_ne hj]

/-- Settles O35: no effect but INIT's and those that compress changes the chaining state or the counter. -/
theorem onlyCompressionsChangeChain : Obligations.OnlyCompressionsChangeChain := by
  intro i s t k k' hinit h hk hk' hc
  rcases exec_next_slot h hk hk' with ⟨_, _, rfl, _⟩ | ⟨_, _, rfl, _⟩ | ⟨e, heffect, _⟩
  · exact ⟨rfl, rfl⟩
  · exact ⟨rfl, rfl⟩
  · obtain ⟨hh, ht, _⟩ := effect_chain heffect hinit hc
    exact ⟨hh, ht⟩

/-- R124: RDDIG answers a byte. -/
theorem reading_rddig_lt {ctx : Ctx} {idx : Byte} {k : Slot} {d : BitVec 32} (h : Reading (.rddig ctx idx) k d) :
    d.toNat < 256 := by
  cases h
  rw [BitVec.toNat_setWidth_of_le (by decide)]
  exact BitVec.isLt _

/-- Settles O36: an error, and an effect, answer DATA 0, and a reading is a read's. -/
theorem everyWordOneResponse : Obligations.EveryWordOneResponse := by
  intro w s t hacc
  obtain ⟨d, hr, hdata⟩ := acceptWord_rsp hacc
  refine ⟨_, hr, hdata, fun i hdec => ?_⟩
  have h : exec i s = .next t := by rw [← hacc, acceptWord, hdec]
  have hzero (err : ErrorCode) (ht : t.rsp = some ⟨err, 0⟩) : d = 0 :=
    congrArg Response.data (Option.some.inj (hr.symm.trans ht))
  rcases exec_next h with ⟨err, _, rfl⟩ | ⟨k, d', hk, hread, rfl⟩ | ⟨_, _, _, _, heffect, rfl⟩
  · obtain rfl := hzero err rfl
    exact ⟨fun _ => rfl, fun _ _ _ => by simp⟩
  · obtain rfl : d' = d := congrArg Response.data (Option.some.inj hr)
    refine ⟨fun hi => ?_, fun ctx idx hi => reading_rddig_lt (hi ▸ hread)⟩
    rw [isRead_of_reading hread] at hi
    cases hi
  · obtain rfl := hzero .ok rfl
    exact ⟨fun _ => rfl, fun _ _ _ => by simp⟩

end Sys2Proof.Machine
end

section
/-!
The invariant of the machine (spec/40_context_commands.md R131): each effect leaves a slot in the ranges of its state, so
every command word is answered, and every step keeps the invariant and goes on.
-/

namespace Sys2Proof.Machine

open Claims

section
variable {i : Instr} {s t : State} {k k' : Slot} {e e' : Engine}

/-- R131, R120: a new context is in range. -/
theorem freshSlot_liveInv {kp : Bool} {kk nn : Byte} (hnn : nnInRange nn = true) (hkk : kkInRange kp kk = true) :
    (freshSlot kp kk nn).LiveInv := by
  obtain ⟨hlo, hhi⟩ := (nnInRange_iff nn).mp hnn
  obtain ⟨hkey, hnoKey⟩ := (kkInRange_iff kp kk).mp hkk
  have hnn7 : (freshSlot kp kk nn).nn.toNat = nn.toNat := (BitVec.toNat_setWidth 7 nn).trans (by omega)
  have hfill : (freshSlot kp kk nn).c.toNat ≤ 128 := Nat.zero_le _
  cases kp with
  | true =>
    obtain ⟨hkklo, hkkhi⟩ := hkey rfl
    have hkk7 : (freshSlot true kk nn).kk.toNat = kk.toNat := (BitVec.toNat_setWidth 7 kk).trans (by omega)
    have hrange : 1 ≤ (freshSlot true kk nn).kk.toNat ∧ (freshSlot true kk nn).kk.toNat ≤ 64 := by omega
    have hzero (j : Fin 128) : (freshSlot true kk nn).b[j.val] = 0 := Vector.getElem_replicate j.isLt
    exact ⟨hfill, by omega, by omega, hrange, fun _ => ⟨rfl, hrange.1, rfl, fun j _ => hzero j⟩, nofun, nofun⟩
  | false =>
    have hzero : (freshSlot false kk nn).kk = 0 := congrArg (BitVec.setWidth 7) (BitVec.eq_of_toNat_eq (hnoKey rfl) : kk = 0)
    exact ⟨hfill, by omega, by omega, hzero, nofun, fun _ => rfl, nofun⟩

/-- R131, R121: a key byte leaves the slot in KEYING with one byte more, or in ABSORB with a buffer that counts as full. -/
theorem keyb_liveInv {data : Byte} (hc : k.c.toNat + 1 ≤ 128) (hst : k.st = .keying) (h : k.LiveInv) :
    (k.putByte data hc).completeKey.LiveInv := by
  obtain ⟨_, hnn, hnn', hkk, hkeying, _, _⟩ := h
  obtain ⟨hkp, hlt, ht, hzero⟩ := hkeying hst
  unfold Slot.completeKey
  split
  case isTrue => exact ⟨by simp, hnn, hnn', hkk, nofun, fun _ => by simp [ht], nofun⟩
  case isFalse hlast =>
    have hnext : (k.c + 1).toNat = k.c.toNat + 1 := BitVec.toNat_add_of_lt (by simp; omega)
    have hne : k.c.toNat + 1 ≠ k.kk.toNat := mt (succ_fill_eq_keyLength_iff hc).mpr hlast
    refine ⟨by rwa [putByte_c, hnext], hnn, hnn', hkk, fun _ => ⟨hkp, ?fill, ht, fun j hj => ?rest⟩, ?_, ?_⟩
    case fill => rw [putByte_c, putByte_kk, hnext]; omega
    case rest =>
      rw [putByte_c, hnext] at hj
      simp only [putByte_b]
      rw [Vector.getElem_set_ne _ _ (by omega)]
      exact hzero j (by omega)
    all_goals simp [hst]

/-- R131: each effect leaves a slot in the ranges of its state. -/
theorem effect_liveInv (h : Effect i k e k' e') (hk : k.Inv) : k'.LiveInv := by
  cases h with
  | init hnn hkk => exact freshSlot_liveInv hnn hkk
  | keyb hc hst => exact keyb_liveInv hc hst (hk (by simp [hst]))
  | stage hc hst hfull =>
    obtain ⟨_, hnn, hnn', hkk, _, habsorb, _⟩ := hk (by simp [hst])
    have hnext : (k.c + 1).toNat = k.c.toNat + 1 := BitVec.toNat_add_of_lt (by simp; omega)
    exact ⟨by rwa [putByte_c, hnext], hnn, hnn', hkk, by simp [hst], habsorb, by simp [hst]⟩
  | flush hc hst hfull hcount =>
    obtain ⟨_, hnn, hnn', hkk, _, habsorb, _⟩ := hk (by simp [hst])
    have ht : (k.t + 128).toNat % 128 = 0 := by
      have := habsorb hst
      rw [BitVec.toNat_add]
      simp
      omega
    exact ⟨by simp, hnn, hnn', hkk, by simp [hst], fun _ => ht, by simp [hst]⟩
  | final hst hcount =>
    obtain ⟨_, hnn, hnn', hkk, _⟩ := hk (by simp [hst])
    exact ⟨by simp, hnn, hnn', hkk, nofun, nofun, fun _ => rfl⟩

/-- R131, R100: a command that ends keeps the invariant. -/
theorem exec_keeps_inv (h : exec i s = .next t) (hs : s.Inv) : t.Inv := by
  obtain ⟨hnum, hslots, hseq, hrsp, hdel⟩ := hs
  rcases exec_next h with ⟨err, _, rfl⟩ | ⟨k, d, hk, hread, rfl⟩ | ⟨k, k', e, hk, heffect, rfl⟩
  · exact ⟨hnum, hslots, hseq, by simp [Response.Inv], hdel⟩
  · exact ⟨hnum, hslots, hseq, by simp, hdel⟩
  · have hlive := effect_liveInv heffect (hslots k (List.mem_of_getElem? hk))
    refine ⟨by simpa using hnum, fun k₁ hk₁ => ?_, effect_seq heffect hseq, by simp, hdel⟩
    rcases List.mem_or_eq_of_mem_set hk₁ with hold | rfl
    · exact hslots k₁ hold
    · exact fun _ => hlive

/-- R8, R131: under the invariant a command stops at no fault. -/
theorem exec_goes_on (i : Instr) (hs : s.Inv) : ∃ t, exec i s = .next t := by
  cases hk : s.slots[i.ctx.toNat]? with
  | none => exact ⟨_, exec_no_slot hk⟩
  | some k =>
    rcases exec_slot i hk with ⟨err, _, h⟩ | ⟨d, _, h⟩ | ⟨k', e, _, h⟩ | ⟨f, _, hbad⟩
    · exact ⟨_, h⟩
    · exact ⟨_, h⟩
    · exact ⟨_, h⟩
    · obtain ⟨_, hslots, _⟩ := hs
      refine absurd (fun hlive => ?_) hbad
      obtain ⟨hc, _, hnn, hkk, hkeying, _⟩ := hslots k (List.mem_of_getElem? hk) hlive
      refine ⟨hc, hnn, fun hst => ?_⟩
      obtain ⟨hkp, hlt, _⟩ := hkeying hst
      rw [if_pos hkp] at hkk
      omega

/-- R104, R131: accepting any word ends, with a response pending and the invariant kept. -/
theorem acceptWord_goes_on (w : Word) (hs : s.Inv) : ∃ t r, acceptWord w s = .next t ∧ t.rsp = some r ∧ t.Inv := by
  rcases acceptWord_cases w s with ⟨err, _, hacc⟩ | ⟨i, _, hacc⟩
  · obtain ⟨hnum, hslots, hseq, _, hdel⟩ := hs
    exact ⟨_, _, hacc, rfl, hnum, hslots, hseq, by simp, hdel⟩
  · obtain ⟨t, ht⟩ := exec_goes_on i hs
    obtain ⟨r, hr⟩ := exec_answers ht
    exact ⟨t, r, hacc.trans ht, hr, exec_keeps_inv ht hs⟩

/-- R38, R131: the slots after reset are IDLE. -/
theorem replicate_reset_inv (n : Nat) : ∀ k ∈ List.replicate n Slot.reset, k.Inv := by
  intro k hk hlive
  rw [List.eq_of_mem_replicate hk] at hlive
  exact absurd rfl hlive

/-- R250: reset keeps the invariant. -/
theorem onReset_inv (hs : s.Inv) : s.onReset.Inv := by
  obtain ⟨hnum, _, _, _, hdel⟩ := hs
  exact ⟨by simpa using hnum, replicate_reset_inv _, rfl, by simp, hdel⟩

/-- R102: delivery keeps the invariant. -/
theorem deliver_inv (hs : s.Inv) : s.deliver.Inv := by
  cases hr : s.rsp with
  | none => rwa [State.deliver, hr]
  | some r =>
    obtain ⟨hnum, hslots, hseq, hrsp, hdel⟩ := hs
    rw [deliver_of_rsp hr]
    refine ⟨hnum, hslots, hseq, by simp, fun r' hr' => ?_⟩
    rcases List.mem_append.mp hr' with hold | hnew
    · exact hdel r' hold
    · rw [List.mem_singleton.mp hnew]
      exact hrsp r hr

/-- The next event is taken off the input, and nothing else of the state. -/
theorem nextEvent_state (s : State) : ∃ rest, s.nextEvent.2 = { s with input := rest } := by
  unfold State.nextEvent
  split
  · exact ⟨s.input, rfl⟩
  · exact ⟨_, rfl⟩

/-- R8, R104, R131: under the invariant a step goes on, and keeps it. -/
theorem step_goes_on (hs : s.Inv) : ∃ t, step s = .next t ∧ t.Inv := by
  obtain ⟨rest, hrest⟩ := nextEvent_state s
  have hs' : s.nextEvent.2.Inv := hrest ▸ hs
  rw [step]
  rcases portStep_cases s.nextEvent.1 s.nextEvent.2 with h | h | h | h <;> rw [h]
  · exact ⟨_, rfl, onReset_inv hs'⟩
  · exact ⟨_, rfl, deliver_inv hs'⟩
  · exact ⟨_, rfl, hs'⟩
  · obtain ⟨t, _, ht, _, hinv⟩ := acceptWord_goes_on s.nextEvent.1.cmdWord hs'
    exact ⟨t, ht, hinv⟩

end

/-- Settles O45: reset, delivery, waiting and each command keep the invariant. -/
theorem stepKeepsInvariant : Obligations.StepKeepsInvariant := by
  intro s s' hs h
  obtain ⟨t, ht, hinv⟩ := step_goes_on hs
  cases ht.symm.trans h
  exact hinv

/-- Settles O46: the first step goes on and keeps the invariant, and so does the run after it. -/
theorem runsNeverStop : Obligations.RunsNeverStop := by
  intro s n hs
  induction n generalizing s with
  | zero => exact ⟨s, rfl, hs⟩
  | succ n ih =>
    obtain ⟨t, ht, hinv⟩ := step_goes_on hs
    rw [run_succ_of_step core ht]
    exact ih t hinv

/-- Settles O47: a word that is no command answers an error, and a command goes on under the invariant. -/
theorem everyWordAnswered : Obligations.EveryWordAnswered := fun _ w hs => acceptWord_goes_on w hs

/-- 00_scope.md R8: a command that needs no access R8 rules out ends, with an error, an effect or a reading. -/
theorem exec_goes_on_of_no_specificationError {i : Instr} {s : State} {k : Slot} (hk : s.slots[i.ctx.toNat]? = some k)
    (h : specificationError i k = none) : ∃ t, exec i s = .next t := by
  cases hst : stateForbids i k.st with
  | true => exact ⟨_, exec_of_stateForbids hk hst⟩
  | false =>
    cases hop : operandsBad i k with
    | true => exact ⟨_, exec_of_operandsBad hk hst hop⟩
    | false =>
      cases hcount : counterBad i k with
      | true => exact ⟨_, exec_of_counterBad hk hst hcount⟩
      | false =>
        rcases effect_or_reading_of_checks s.engine hst hop hcount h with ⟨k', e', heffect⟩ | ⟨d, hread⟩
        · exact ⟨_, exec_of_effect hk heffect⟩
        · exact ⟨_, exec_of_reading hk hread⟩

/-- Settles O48: a command stops where it needs an access R8 rules out, and a slot that does not exist needs none. -/
theorem stopsAreSpecificationErrors : Obligations.StopsAreSpecificationErrors := by
  refine fun i s => ⟨fun k f => exec_of_specificationError, fun h => ?_⟩
  cases hk : s.slots[i.ctx.toNat]? with
  | none => exact ⟨_, exec_no_slot hk⟩
  | some k => exact exec_goes_on_of_no_specificationError hk (h k hk)

/-- Settles O44: after reset every slot is IDLE, of which the invariant asks nothing. -/
theorem resetMeetsInvariant : Obligations.ResetMeetsInvariant := by
  have hreset (n : Nat) (hlo : 1 ≤ n) (hhi : n ≤ 16) : (State.resetFor n).Inv :=
    ⟨by simpa using ⟨hlo, hhi⟩, replicate_reset_inv n, rfl, by simp, by simp⟩
  exact ⟨hreset, hreset 16 (by decide) (by decide)⟩

end Sys2Proof.Machine
end

section
/-!
The port, event by event (spec/30_encoding.md R102 to R104, 70_reset_and_hazards.md R250 to R252), and a slot in IDLE
(10_state.md R28).
-/

namespace Sys2Proof.Machine

open Claims

section
variable {s : State} {p : PortIn} {rest : List PortIn}

/-- A step takes the first event off the input. -/
theorem step_of_input (h : s.input = p :: rest) : step s = portStep p { s with input := rest } := by
  rw [step, nextEvent_of_input h]

/-- R250: an event with reset. -/
theorem portStep_reset (hrst : p.rst = true) : portStep p s = .next s.onReset := if_pos hrst

/-- R102, R103: with a response pending an event delivers it, or the core waits. -/
theorem portStep_pending {r : Response} (hrst : p.rst = false) (hr : s.rsp = some r) :
    portStep p s = if p.rspReady then .next s.deliver else .next s := by
  simp [portStep, State.rspValid, hrst, hr]

/-- R102: with none pending, an event offers a word, which is accepted, or the core waits. -/
theorem portStep_ready (hrst : p.rst = false) (hr : s.rsp = none) :
    portStep p s = if p.cmdValid then acceptWord p.cmdWord s else .next s := by
  simp [portStep, State.rspValid, State.cmdReady, hrst, hr]

end

/-- Settles O39: the event is taken off the input and its word is accepted. -/
theorem stepRunsOfferedCommand : Obligations.StepRunsOfferedCommand := by
  intro s p rest hr hinput hrst hvalid
  have hstep : step s = acceptWord p.cmdWord { s with input := rest } := by
    rw [step_of_input hinput, portStep_ready hrst (s := { s with input := rest }) hr, if_pos hvalid]
  refine ⟨fun i hdec => ?_, fun e hdec => ?_⟩
  · rw [hstep, acceptWord, hdec]
  · rw [hstep, acceptWord, hdec]
    rfl

/-- Settles O40: the word is offered and no response is pending. -/
theorem fetchWordIsAccepted : Obligations.FetchWordIsAccepted := by
  intro s w
  have hword : BitVec.ofNat 32 (w.toNat % 2 ^ 32) = w := by
    rw [Nat.mod_eq_of_lt w.isLt, BitVec.ofNat_toNat, BitVec.setWidth_eq]
  rw [State.withFetchWord, hword, step_of_input rfl]
  exact portStep_ready (s := { s with rsp := none }) rfl rfl

/-- Settles O41, by whether a response is pending. -/
theorem oneCommandOutstanding : Obligations.OneCommandOutstanding := by
  intro s p rest hinput hrst
  refine ⟨fun r hr => ?pending, fun hr => ?ready⟩
  case pending =>
    have hstep := portStep_pending (s := { s with input := rest }) hrst hr
    rw [step_of_input hinput, hstep]
    refine ⟨by simp [State.cmdReady, hr], by simp [State.rspValid, hrst, hr], fun htake => ?_, fun hkeep => ?_⟩
    · rw [if_pos htake, deliver_of_rsp (s := { s with input := rest }) hr]
    · rw [if_neg (by simp [hkeep])]
  case ready =>
    have hstep := portStep_ready (s := { s with input := rest }) hrst hr
    rw [step_of_input hinput, hstep]
    exact ⟨by simp [State.cmdReady, hrst, hr], by simp [State.rspValid, hr], fun hnone => if_neg (by simp [hnone])⟩

/-- Settles O42: an event with reset is `onReset`. -/
theorem resetIdlesEverySlot : Obligations.ResetIdlesEverySlot := by
  intro s p rest hinput hrst
  refine ⟨by simp [State.cmdReady, hrst], by simp [State.rspValid, hrst], _,
    (step_of_input hinput).trans (portStep_reset hrst), List.length_replicate, fun k hk => ?_, rfl, rfl, rfl, rfl⟩
  rw [List.eq_of_mem_replicate hk]
  rfl

/-- R28, R222: every command but INIT and RDSTAT is forbidden on a slot in IDLE. -/
theorem stateForbids_idle {i : Instr} (hinit : isInit i = false) (hstat : ∀ ctx, i ≠ .rdstat ctx) :
    stateForbids i .idle = true := by
  cases i with
  | init => cases hinit
  | rdstat ctx => exact absurd rfl (hstat ctx)
  | keyb | updb | final | rddig | rdcnt => rfl

/-- R28, R252: what a command but INIT answers on a slot in IDLE. -/
theorem exec_of_idle {i : Instr} {s : State} {k : Slot} (hinit : isInit i = false) (hk : s.slots[i.ctx.toNat]? = some k)
    (hidle : k.st = .idle) :
    ((∃ ctx, i = .rdstat ctx) → exec i s = .next (answered s .ok 0)) ∧
    ((∀ ctx, i ≠ .rdstat ctx) → exec i s = .next (answered s .invalidState 0)) := by
  refine ⟨?_, fun hstat => exec_of_stateForbids hk (hidle ▸ stateForbids_idle hinit hstat)⟩
  rintro ⟨ctx, rfl⟩
  rw [← status_of_idle hidle]
  exact exec_of_reading hk .rdstat

/-- Settles O43: every slot is IDLE, and there each command has its one answer. -/
theorem resetStateWaits : Obligations.ResetStateWaits := by
  intro n
  have hslot {ctx : Ctx} (hctx : ctx.toNat < n) : (State.resetFor n).slots[ctx.toNat]? = some Slot.reset :=
    List.getElem?_replicate_of_lt hctx
  refine ⟨List.length_replicate, fun k hk => ?_, rfl, rfl, rfl, rfl, fun ctx x hctx => ⟨?_, ?_, ?_, ?_, ?_, ?_⟩⟩
  · rw [List.eq_of_mem_replicate hk]
    rfl
  · exact (exec_of_idle (i := .keyb ctx x) rfl (hslot hctx) rfl).2 nofun
  · exact (exec_of_idle (i := .updb ctx x) rfl (hslot hctx) rfl).2 nofun
  · exact (exec_of_idle (i := .final ctx) rfl (hslot hctx) rfl).2 nofun
  · exact (exec_of_idle (i := .rddig ctx x) rfl (hslot hctx) rfl).2 nofun
  · exact (exec_of_idle (i := .rdcnt ctx x) rfl (hslot hctx) rfl).2 nofun
  · exact (exec_of_idle (i := .rdstat ctx) rfl (hslot hctx) rfl).1 ⟨ctx, rfl⟩

/-- R28, R252: a command leaves a slot in IDLE as it is, unless it is an INIT of that slot. -/
theorem exec_keeps_idle {i : Instr} {s t : State} {n : Nat} {k : Slot} (hk : s.slots[n]? = some k) (hidle : k.st = .idle)
    (h : exec i s = .next t) (hother : isInit i = true → i.ctx.toNat ≠ n) : t.slots[n]? = some k := by
  by_cases hn : n = i.ctx.toNat
  · subst hn
    have hinit : isInit i = false := Bool.eq_false_iff.mpr fun hi => hother hi rfl
    rcases exec_next h with ⟨_, _, rfl⟩ | ⟨_, _, _, _, rfl⟩ | ⟨k₀, k', e, hk₀, heffect, _⟩
    · exact hk
    · exact hk
    · obtain rfl := Option.some.inj (hk₀.symm.trans hk)
      cases heffect with
      | init => cases hinit
      | keyb _ hst | stage _ hst | flush _ hst | final hst => cases hst.symm.trans hidle
  · obtain ⟨_, _, _, hslots⟩ := otherSlotsUntouched i s t h
    rw [hslots n hn, hk]

/-- R252: an accepted word leaves a slot in IDLE as it is, unless it is an INIT of that slot. -/
theorem acceptWord_keeps_idle {w : Word} {s t : State} {n : Nat} {k : Slot} (hk : s.slots[n]? = some k)
    (hidle : k.st = .idle) (h : acceptWord w s = .next t)
    (hother : ∀ i, decode w = .ok i → isInit i = true → i.ctx.toNat ≠ n) : t.slots[n]? = some k := by
  rcases acceptWord_cases w s with ⟨_, _, hacc⟩ | ⟨i, hdec, hacc⟩
  · cases hacc.symm.trans h
    exact hk
  · exact exec_keeps_idle hk hidle (hacc ▸ h) (hother i hdec)

/-- R252: an event leaves a slot in IDLE there, unless it accepts an INIT of it. -/
theorem portStep_keeps_idle {p : PortIn} {s t : State} {n : Nat} {k : Slot} (hk : s.slots[n]? = some k)
    (hidle : k.st = .idle) (h : portStep p s = .next t)
    (hother : p.rst = false → p.cmdValid = true → s.rsp = none →
      ∀ i, decode p.cmdWord = .ok i → isInit i = true → i.ctx.toNat ≠ n) :
    ∃ k', t.slots[n]? = some k' ∧ k'.st = .idle := by
  cases hrst : p.rst with
  | true =>
    cases (portStep_reset hrst).symm.trans h
    exact ⟨Slot.reset, List.getElem?_replicate_of_lt (List.getElem?_eq_some_iff.mp hk).1, rfl⟩
  | false =>
    refine ⟨k, ?_, hidle⟩
    cases hr : s.rsp with
    | some r =>
      rw [portStep_pending hrst hr] at h
      split at h <;> cases h
      · rwa [deliver_slots]
      · exact hk
    | none =>
      rw [portStep_ready hrst hr] at h
      split at h
      case isTrue hvalid => exact acceptWord_keeps_idle hk hidle h (hother hrst hvalid hr)
      case isFalse =>
        cases h
        exact hk

/-- Settles O57: the answers on a slot in IDLE, and an event of the host or, with none left, a quiet one. -/
theorem idleSlotWaitsForInit : Obligations.IdleSlotWaitsForInit := by
  refine ⟨fun i s k => exec_of_idle, fun s t n k hk hidle hstep hother => ?_⟩
  cases hinput : s.input with
  | nil =>
    rw [step, State.nextEvent, hinput] at hstep
    exact portStep_keeps_idle hk hidle hstep nofun
  | cons p rest =>
    rw [step_of_input hinput] at hstep
    exact portStep_keeps_idle (s := { s with input := rest }) hk hidle hstep
      fun hrst hvalid hr i hdec hi => hother p rest i hinput hrst hvalid hr hdec hi

/-- Settles O1: nine fixed words, decoded. -/
theorem specWordsDecode : Obligations.SpecWordsDecode := by
  unfold Obligations.SpecWordsDecode
  decide

end Sys2Proof.Machine
end

section
/-!
What a host can observe (spec/10_state.md R28, R31, R39, 60_exceptions.md R229): machines that differ in the fields of IDLE
slots and the internal storage go on alike, no answer depends on a buffer, and sessions on different slots do not meet.
-/

namespace Sys2Proof.Machine

open Claims

/-- Two outcomes a host cannot tell apart: states that look the same, or the same stop. -/
inductive SameOutcome : Result → Result → Prop
  | next {t t' : State} : t.SameVisible t' → SameOutcome (.next t) (.next t')
  | fault (f : Fault) : SameOutcome (.fault f) (.fault f)

/-- Two lists are related entry by entry exactly if at every index both have related entries or neither has one. -/
theorem forall₂_iff_getElem? {α β : Type} {R : α → β → Prop} {l : List α} {l' : List β} :
    List.Forall₂ R l l' ↔ ∀ n : Nat, Option.Rel R l[n]? l'[n]? := by
  constructor
  · intro h n
    induction h generalizing n with
    | nil => exact .none
    | cons hx _ ih =>
      cases n with
      | zero => exact .some hx
      | succ n => exact ih n
  · intro h
    induction l generalizing l' with
    | nil =>
      cases l' with
      | nil => exact .nil
      | cons y ys => cases h 0
    | cons x xs ih =>
      cases l' with
      | nil => cases h 0
      | cons y ys =>
        cases h 0 with
        | some hx => exact .cons hx (ih fun n => h (n + 1))

/-- The entry beside an entry of a list that is related to another entry by entry. -/
theorem getElem?_of_forall₂ {α β : Type} {R : α → β → Prop} {l : List α} {l' : List β} (h : List.Forall₂ R l l')
    {n : Nat} {x : α} (hx : l[n]? = some x) : ∃ y, l'[n]? = some y ∧ R x y := by
  have hrel := forall₂_iff_getElem?.mp h n
  rw [hx] at hrel
  generalize l'[n]? = o at hrel
  cases hrel with
  | some hxy => exact ⟨_, rfl, hxy⟩

section
variable {i : Instr} {s s' t t' : State}

/-- R28, R39: on two machines that look the same, a command that ends in both with the same answer and leaves its slot
looking the same leaves machines that look the same. -/
theorem exec_sameVisible_of_slot (h : s.SameVisible s') (ht : exec i s = .next t) (ht' : exec i s' = .next t')
    (hrsp : t.rsp = t'.rsp) (hslot : Option.Rel Slot.SameVisible t.slots[i.ctx.toNat]? t'.slots[i.ctx.toNat]?) :
    t.SameVisible t' := by
  obtain ⟨hslots, _, hinput, hdel⟩ := h
  obtain ⟨_, htinput, htdel, hother⟩ := otherSlotsUntouched i s t ht
  obtain ⟨_, htinput', htdel', hother'⟩ := otherSlotsUntouched i s' t' ht'
  refine ⟨forall₂_iff_getElem?.mpr fun n => ?_, hrsp, by rw [htinput, htinput', hinput], by rw [htdel, htdel', hdel]⟩
  by_cases hn : n = i.ctx.toNat
  · rwa [hn]
  · rw [hother n hn, hother' n hn]
    exact forall₂_iff_getElem?.mp hslots n

/-- A slot looks the same as itself. -/
theorem sameVisible_refl (o : Option Slot) : Option.Rel Slot.SameVisible o o := by
  cases o with
  | none => exact .none
  | some k => exact .some (.inl rfl)

/-- R39: a command on a slot that the two machines share. -/
theorem exec_sameOutcome_of_eq (h : s.SameVisible s') (hslot : s.slots[i.ctx.toNat]? = s'.slots[i.ctx.toNat]?) :
    SameOutcome (exec i s) (exec i s') := by
  have halike := exec_alikeAt i hslot
  generalize hr : exec i s = r at halike
  generalize hr' : exec i s' = r' at halike
  cases halike with
  | next hrsp hsame => exact .next (exec_sameVisible_of_slot h hr hr' hrsp.symm (hsame ▸ sameVisible_refl _))
  | fault f => exact .fault f

/-- R120, R28: INIT reads nothing of its slot. -/
theorem exec_init_alike {ctx : Ctx} {kp : Bool} {kk nn : Byte} (hctx : ctx.toNat < s.slots.length)
    (hctx' : ctx.toNat < s'.slots.length) (h : s.SameVisible s') :
    SameOutcome (exec (.init ctx kp kk nn) s) (exec (.init ctx kp kk nn) s') := by
  by_cases hrange : nnInRange nn = true ∧ kkInRange kp kk = true
  · obtain ⟨hnn, hkk⟩ := hrange
    have ht := exec_init hctx hnn hkk
    have ht' := exec_init hctx' hnn hkk
    rw [ht, ht']
    refine .next (exec_sameVisible_of_slot h ht ht' rfl ?_)
    rw [wrote, wrote, Instr.ctx, List.getElem?_set_self hctx, List.getElem?_set_self hctx']
    exact sameVisible_refl _
  · have ht := exec_init_bad hctx hrange
    have ht' := exec_init_bad hctx' hrange
    rw [ht, ht']
    exact .next (exec_sameVisible_of_slot h ht ht' rfl (forall₂_iff_getElem?.mp h.1 _))

/-- R28: what a command answers on a slot in IDLE does not depend on the slot's other fields. -/
theorem exec_idle_alike {k k' : Slot} (h : s.SameVisible s') (hk : s.slots[i.ctx.toNat]? = some k)
    (hk' : s'.slots[i.ctx.toNat]? = some k') (hidle : k.st = .idle) (hidle' : k'.st = .idle) :
    SameOutcome (exec i s) (exec i s') := by
  cases hinit : isInit i with
  | true =>
    cases i with
    | init => exact exec_init_alike (List.getElem?_eq_some_iff.mp hk).1 (List.getElem?_eq_some_iff.mp hk').1 h
    | keyb | updb | final | rddig | rdstat | rdcnt => cases hinit
  | false =>
    have alike {err : ErrorCode} (ht : exec i s = .next (answered s err 0))
        (ht' : exec i s' = .next (answered s' err 0)) : SameOutcome (exec i s) (exec i s') := by
      rw [ht, ht']
      exact .next (exec_sameVisible_of_slot h ht ht' rfl (forall₂_iff_getElem?.mp h.1 _))
    obtain ⟨hstat, hother⟩ := exec_of_idle hinit hk hidle
    obtain ⟨hstat', hother'⟩ := exec_of_idle hinit hk' hidle'
    by_cases hi : ∃ ctx, i = .rdstat ctx
    · exact alike (hstat hi) (hstat' hi)
    · have hi := not_exists.mp hi
      exact alike (hother hi) (hother' hi)

/-- R28, R31: a command on two machines that look the same. -/
theorem exec_sameOutcome (i : Instr) (h : s.SameVisible s') : SameOutcome (exec i s) (exec i s') := by
  have hslot := forall₂_iff_getElem?.mp h.1 i.ctx.toNat
  generalize hk : s.slots[i.ctx.toNat]? = o at hslot
  generalize hk' : s'.slots[i.ctx.toNat]? = o' at hslot
  cases hslot with
  | none => exact exec_sameOutcome_of_eq h (hk.trans hk'.symm)
  | some hsame =>
    rcases hsame with rfl | ⟨hidle, hidle'⟩
    · exact exec_sameOutcome_of_eq h (hk.trans hk'.symm)
    · exact exec_idle_alike h hk hk' hidle hidle'

/-- R28, R31: a word accepted by two machines that look the same. -/
theorem acceptWord_sameOutcome (w : Word) (h : s.SameVisible s') : SameOutcome (acceptWord w s) (acceptWord w s') := by
  unfold acceptWord
  split
  · exact exec_sameOutcome _ h
  · obtain ⟨hslots, _, hinput, hdel⟩ := h
    exact .next ⟨hslots, rfl, hinput, hdel⟩

/-- R102, R250: one event on two machines that look the same. -/
theorem portStep_sameOutcome (p : PortIn) (h : s.SameVisible s') : SameOutcome (portStep p s) (portStep p s') := by
  obtain ⟨hslots, hrsp, hinput, hdel⟩ := h
  cases hrst : p.rst with
  | true =>
    rw [portStep_reset hrst, portStep_reset hrst]
    refine .next ⟨?_, rfl, hinput, hdel⟩
    rw [onReset_slots, onReset_slots, hslots.length_eq]
    exact forall₂_iff_getElem?.mpr fun n => sameVisible_refl _
  | false =>
    cases hr : s.rsp with
    | some r =>
      have hr' : s'.rsp = some r := hrsp.symm.trans hr
      rw [portStep_pending hrst hr, portStep_pending hrst hr', deliver_of_rsp hr, deliver_of_rsp hr', hdel]
      split
      · exact .next ⟨hslots, rfl, hinput, rfl⟩
      · exact .next ⟨hslots, hrsp, hinput, hdel⟩
    | none =>
      rw [portStep_ready hrst hr, portStep_ready hrst (hrsp.symm.trans hr)]
      split
      · exact acceptWord_sameOutcome _ ⟨hslots, hrsp, hinput, hdel⟩
      · exact .next ⟨hslots, hrsp, hinput, hdel⟩

/-- R28, R31: one step of two machines that look the same, which take the same event. -/
theorem step_sameOutcome (h : s.SameVisible s') : SameOutcome (step s) (step s') := by
  obtain ⟨hslots, hrsp, hinput, hdel⟩ := h
  cases hs : s.input with
  | nil =>
    rw [step, step, State.nextEvent, State.nextEvent, ← hinput, hs]
    exact portStep_sameOutcome _ ⟨hslots, hrsp, hinput, hdel⟩
  | cons p rest =>
    rw [step_of_input hs, step_of_input (hinput ▸ hs)]
    exact portStep_sameOutcome p ⟨hslots, hrsp, rfl, hdel⟩

end

/-- Settles O49, from the outcomes of one step on two machines that look the same. -/
theorem idleFieldsUnobservable : Obligations.IdleFieldsUnobservable := by
  intro s s' h
  have hsame := step_sameOutcome h
  generalize step s = r at hsame
  generalize step s' = r' at hsame
  cases hsame with
  | next hvis =>
    refine ⟨fun t ht => ?_, nofun⟩
    cases ht
    exact ⟨_, rfl, hvis⟩
  | fault f => exact ⟨nofun, fun _ hf => hf⟩

section
variable {i : Instr} {k k' k₁ : Slot} {e e₁ : Engine} {d : BitVec 32}

/-- R229: whether a command has an effect does not depend on the buffer, nor on the chaining state before DONE. -/
theorem effect_of_sameButSecret (h : k.SameButSecret k') (heffect : Effect i k e k₁ e₁) (e' : Engine) :
    ∃ k₁' e₁', Effect i k' e' k₁' e₁' := by
  obtain ⟨hst, ht, hc, _⟩ := h
  cases heffect with
  | init hnn hkk => exact ⟨_, _, .init hnn hkk⟩
  | keyb hfill hkeying => exact ⟨_, _, .keyb (hc ▸ hfill) (hst ▸ hkeying)⟩
  | stage hfill habsorb hfull => exact ⟨_, _, .stage (hc ▸ hfill) (hst ▸ habsorb) (hc ▸ hfull)⟩
  | flush _ habsorb hfull hcount => exact ⟨_, _, .flush (by simp) (hst ▸ habsorb) (hc ▸ hfull) (ht ▸ hcount)⟩
  | final habsorb hcount => exact ⟨_, _, .final (hst ▸ habsorb) (hc ▸ ht ▸ hcount)⟩

/-- R229: what a read answers does not depend on the buffer, nor on the chaining state before DONE. -/
theorem reading_of_sameButSecret (h : k.SameButSecret k') (hread : Reading i k d) : Reading i k' d := by
  obtain ⟨hst, ht, hc, hnn, hkp, hkk, hh⟩ := h
  cases hread with
  | rddig hidx hdone hlt =>
    rw [hh hdone]
    exact .rddig hidx (hst ▸ hdone) (hnn ▸ hlt)
  | rdstat =>
    have hstatus : k.status = k'.status := by simp only [Slot.status, hst, hc, hnn, hkp, hkk]
    rw [hstatus]
    exact .rdstat
  | rdcnt hlive hidx =>
    rw [ht]
    exact .rdcnt (hst ▸ hlive) hidx

/-- R229: the checks of a command do not depend on the buffer, nor on the chaining state. -/
theorem checks_of_sameButSecret (h : k.SameButSecret k') (i : Instr) :
    k.st = k'.st ∧ operandsBad i k = operandsBad i k' ∧ counterBad i k = counterBad i k' := by
  obtain ⟨hst, ht, hc, hnn, _⟩ := h
  refine ⟨hst, ?_, ?_⟩
  · cases i <;> simp only [operandsBad, hnn]
  · cases i <;> simp only [counterBad, hc, ht]

/-- R229: the error a word answers does not depend on a buffer, nor on a chaining state. -/
theorem firstError_of_sameButSecret {s s' : State} (h : List.Forall₂ Slot.SameButSecret s.slots s'.slots) (w : Word) :
    firstError w s = firstError w s' := by
  rcases acceptWord_cases w s with ⟨_, hdec, _⟩ | ⟨i, hdec, _⟩
  · rw [firstError_of_undecoded hdec, firstError_of_undecoded hdec]
  · have hslot := forall₂_iff_getElem?.mp h i.ctx.toNat
    generalize hk : s.slots[i.ctx.toNat]? = o at hslot
    generalize hk' : s'.slots[i.ctx.toNat]? = o' at hslot
    cases hslot with
    | none => rw [firstError_of_missing hdec hk, firstError_of_missing hdec hk']
    | some hsame =>
      obtain ⟨hst, hop, hcount⟩ := checks_of_sameButSecret hsame i
      rw [firstError_of_slot hdec hk, firstError_of_slot hdec hk', hst, hop, hcount]

end

/-- Settles O50: the same first error; with none, the same reading, or an effect on both and so OK with DATA 0. -/
theorem bufferAndChainConfidential : Obligations.BufferAndChainConfidential := by
  intro s s' t w h hacc
  have herror := firstError_of_sameButSecret h w
  rcases acceptWord_next hacc with ⟨herr, rfl⟩ | ⟨hok, d, hr⟩
  · refine ⟨_, acceptWord_of_firstError (herror ▸ herr), ?_⟩
    rw [herror]
    rfl
  · rcases acceptWord_cases w s with ⟨_, hdec, _⟩ | ⟨i, hdec, hexec⟩
    · rw [firstError_of_undecoded hdec] at hok
      cases hok
    have hexec' : acceptWord w s' = exec i s' := by rw [acceptWord, hdec]
    rw [hexec']
    rcases exec_next (hexec ▸ hacc) with ⟨err, herr, rfl⟩ | ⟨k, d', hk, hread, rfl⟩ | ⟨k, k₁, e, hk, heffect, rfl⟩
    · cases hr
      exact absurd rfl herr
    · obtain ⟨k', hk', hsame⟩ := getElem?_of_forall₂ h hk
      exact ⟨_, exec_of_reading hk' (reading_of_sameButSecret hsame hread), rfl⟩
    · obtain ⟨k', hk', hsame⟩ := getElem?_of_forall₂ h hk
      obtain ⟨k₁', e₁', heffect'⟩ := effect_of_sameButSecret hsame heffect s'.engine
      exact ⟨_, exec_of_effect hk' heffect', rfl⟩

end Sys2Proof.Machine
end

section
/-!
Runs of commands (spec/70_reset_and_hazards.md R259): the part of a run that names one slot (10_state.md R39), and a run
driven word by word on the port (30_encoding.md R103, R104).
-/

namespace Sys2Proof.Machine

open Claims

/-- R39: of a run, the commands on slot a, run from a machine that holds the same slot a, leave the same slot a. -/
theorem runCommands_filter {is : List Instr} {a : Ctx} {s s' t : State} (hs : s.slots[a.toNat]? = s'.slots[a.toNat]?)
    (h : runCommands is s = .next t) :
    ∃ t', runCommands (is.filter fun i => i.ctx == a) s' = .next t' ∧ t'.slots[a.toNat]? = t.slots[a.toNat]? := by
  induction is generalizing s s' with
  | nil =>
    cases h
    exact ⟨s', rfl, hs.symm⟩
  | cons i is ih =>
    obtain ⟨u, hu, hrest⟩ := exec_of_runCommands h
    by_cases hi : i.ctx = a
    · subst hi
      obtain ⟨u', hu', _, hslot⟩ := exec_next_of_same_slot hs hu
      obtain ⟨t', hrun, hend⟩ := ih (s' := u'.deliver) (by rw [deliver_slots, deliver_slots, hslot]) hrest
      refine ⟨t', ?_, hend⟩
      rw [List.filter_cons_of_pos (by simp)]
      exact (runCommands_cons hu').trans hrun
    · rw [List.filter_cons_of_neg (by simpa using hi)]
      exact ih (by rw [deliver_slots, exec_slot_kept (.inl hi) hu, hs]) hrest

/-- Settles O52: the two runs start on the same machine, so with the same slot a. -/
theorem interleavedSessionsIndependent : Obligations.InterleavedSessionsIndependent :=
  fun _ _ _ _ h => runCommands_filter rfl h

/-- R104: no command reads what the host will drive. -/
theorem exec_input {i : Instr} {s t : State} (h : exec i s = .next t) (input : List PortIn) :
    exec i { s with input := input } = .next { t with input := input } := by
  have hacc {s : State} : acceptWord (encode i) s = exec i s := by rw [acceptWord, decodeOfEncode i]
  rcases acceptWord_next (hacc.trans h) with ⟨herr, rfl⟩ | ⟨_, d, hr⟩
  · rw [← hacc]
    exact acceptWord_of_firstError (s := { s with input := input }) herr
  · rcases exec_next h with ⟨err, herr, rfl⟩ | ⟨k, d', hk, hread, rfl⟩ | ⟨k, k', e, hk, heffect, rfl⟩
    · cases hr
      exact absurd rfl herr
    · exact exec_of_reading (s := { s with input := input }) hk hread
    · exact exec_of_effect (s := { s with input := input }) hk heffect

/-- R102: delivery does not read what the host will drive. -/
theorem deliver_input (s : State) (input : List PortIn) :
    ({ s with input := input } : State).deliver = { s.deliver with input := input } := by
  cases hr : s.rsp <;> simp only [State.deliver, hr]

/-- A run of the machine, by its first step. -/
theorem core_run_succ {s s' : State} (h : step s = .next s') (n : Nat) :
    Host.Core.run core (n + 1) s = Host.Core.run core n s' :=
  run_succ_of_step core (s := s) (s' := s') h

/-- R103: two events, one that offers the word of a command and one that takes the response, run the command. -/
theorem run_offer_take {i : Instr} {s u : State} (hr : s.rsp = none) (hu : exec i s = .next u) (rest : List PortIn) (n : Nat) :
    Host.Core.run core (n + 1 + 1) { s with input := PortIn.offer (encode i) :: PortIn.take :: rest } =
      Host.Core.run core n { u.deliver with input := rest } := by
  obtain ⟨hrun, _⟩ := stepRunsOfferedCommand { s with input := PortIn.offer (encode i) :: PortIn.take :: rest } _ _ hr rfl
    rfl rfl
  have hoffer := (hrun i (decodeOfEncode i)).trans (exec_input hu (PortIn.take :: rest))
  obtain ⟨r, hrsp⟩ := exec_answers hu
  obtain ⟨hpending, _⟩ := oneCommandOutstanding { u with input := PortIn.take :: rest } _ _ rfl rfl
  obtain ⟨_, _, hdeliver, _⟩ := hpending r hrsp
  have htake := hdeliver rfl
  rw [deliver_of_rsp hrsp]
  exact (core_run_succ hoffer _).trans (core_run_succ htake n)

/-- Settles O51, two events for each command. -/
theorem portRunsCommands : Obligations.PortRunsCommands := by
  intro is rest s t hr h
  induction is generalizing s with
  | nil => exact h
  | cons i is ih =>
    obtain ⟨u, hu, hrest⟩ := exec_of_runCommands h
    obtain ⟨r, hrsp⟩ := exec_answers hu
    have hinput : u.deliver = { u.deliver with input := rest } := by
      have huinput : u.input = rest := (otherSlotsUntouched i _ u hu).2.1
      rw [← deliver_input, ← huinput]
    rw [hinput] at hrest
    exact (run_offer_take (s := { s with input := rest }) hr hu _ (2 * is.length)).trans
      (ih u.deliver (by rw [deliver_of_rsp hrsp]) hrest)

end Sys2Proof.Machine
end

section
/-!
The data as blocks (spec/40_context_commands.md R130): the block a staged buffer is, padded with zeros, and the chaining
lanes after a number of blocks, which later data do not change.
-/

namespace Sys2Proof.Machine

/-- R130: byte i of block j of the data, 0 past its end. -/
theorem blockAt_getElem (data : List Byte) (j i : Nat) (hi : i < 128) :
    (Native.blockAt data j)[i] = data.getD (128 * j + i) 0 :=
  Vector.getElem_ofFn _

/-- R123: from address 128 on there is nothing to zero. -/
theorem zeroFrom_full (b : Buffer) : zeroFrom b 128 = b := by
  ext1 i hi
  rw [zeroFrom_getElem b 128 ⟨i, hi⟩, if_pos hi]

/-- R123, R130: a buffer that stages the rest of the data from block j on, padded with zeros, is block j. -/
theorem zeroFrom_eq_blockAt {b : Buffer} {data : List Byte} {j c : Nat} (hlen : data.length = 128 * j + c)
    (hstaged : ∀ i, i < c → b[i]? = data[128 * j + i]?) : zeroFrom b c = Native.blockAt data j := by
  ext1 i hi
  rw [zeroFrom_getElem b c ⟨i, hi⟩, blockAt_getElem, List.getD_eq_getElem?_getD]
  split
  case isTrue hc => rw [← hstaged i hc, Vector.getElem?_eq_getElem hi, Option.getD_some]
  case isFalse hc =>
    have hc : c ≤ i := not_lt.mp hc
    rw [List.getElem?_eq_none (by omega), Option.getD_none]

/-- R130: data appended after the end of block j leave it as it is. -/
theorem blockAt_append {data : List Byte} {j : Nat} (h : 128 * (j + 1) ≤ data.length) (more : List Byte) :
    Native.blockAt (data ++ more) j = Native.blockAt data j := by
  ext1 i hi
  rw [blockAt_getElem, blockAt_getElem, List.getD_append _ _ _ _ (by omega)]

/-- R130: data appended after the first j blocks leave the chaining lanes after them as they are. -/
theorem chainAfter_append (h : Vector Native.Lane64 8) {data : List Byte} {j : Nat} (hj : 128 * j ≤ data.length)
    (more : List Byte) : Native.chainAfter h (data ++ more) j = Native.chainAfter h data j := by
  induction j with
  | zero => rfl
  | succ j ih => rw [Native.chainAfter, Native.chainAfter, ih (by omega), blockAt_append hj]

/-- A number below 2^32 as a half is the low half of the number as a lane. -/
theorem zero_append_ofNat {n : Nat} (h : n < 2 ^ 32) : 0#32 ++ BitVec.ofNat 32 n = BitVec.ofNat 64 n := by
  apply BitVec.eq_of_toNat_eq
  rw [append_toNat]
  simp
  omega

/-- R120, R22: the lanes of the chaining state INIT leaves. -/
theorem chainLanes_init {nn kk : Nat} (hnn : nn ≤ 64) (hkk : kk ≤ 64) :
    Native.chainLanes (iv32.set 0 (iv32[0] ^^^ (0x01010000#32 ^^^ BitVec.ofNat 32 (kk * 256) ^^^ BitVec.ofNat 32 nn))) =
      Native.initChain nn kk := by
  have hshift : BitVec.ofNat 64 kk <<< 8 = BitVec.ofNat 64 (kk * 256) := by
    apply BitVec.eq_of_toNat_eq
    simp [Nat.shiftLeft_eq]
  ext1 i hi
  rw [chainLanes_getElem, Native.initChain, hshift, Vector.getElem_set (xs := Native.iv)]
  by_cases h0 : i = 0
  · subst h0
    have hparam : 0x01010000#64 ^^^ BitVec.ofNat 64 (kk * 256) ^^^ BitVec.ofNat 64 nn =
        0#32 ++ (0x01010000#32 ^^^ BitVec.ofNat 32 (kk * 256) ^^^ BitVec.ofNat 32 nn) := by
      rw [← zero_append_ofNat (n := nn) (by omega), ← zero_append_ofNat (n := kk * 256) (by omega),
        show 0x01010000#64 = 0#32 ++ 0x01010000#32 from rfl, BitVec.xor_append, BitVec.xor_append]
      rfl
    rw [if_pos rfl, hparam, native_iv_getElem, BitVec.xor_append, BitVec.xor_zero]
    rfl
  · rw [if_neg (by omega), Vector.getElem_set_ne _ _ (by omega), Vector.getElem_set_ne _ _ (by omega), native_iv_getElem]

end Sys2Proof.Machine
end

section
/-!
A message folded block by block (spec/40_context_commands.md R129 to R131): what a slot in ABSORB holds of the data absorbed
so far, from the opening of a context, over each byte, to FINAL.
-/

namespace Sys2Proof.Machine

open Claims

/-- R130, R131: the slot k has absorbed the data from the chaining lanes h0 on: each full block before the last byte has
been compressed, the counter has counted them, and the rest is staged. -/
structure Absorbed (h0 : Vector Native.Lane64 8) (data : List Byte) (k : Slot) : Prop where
  st : k.st = .absorb
  chain : Native.chainLanes k.h = Native.chainAfter h0 data (Native.nonFinal data.length)
  count : k.t.toNat = 128 * Native.nonFinal data.length
  fill : k.c.toNat = data.length - 128 * Native.nonFinal data.length
  staged : ∀ j, j < k.c.toNat → k.byteAt j = data[128 * Native.nonFinal data.length + j]?

/-- R130: the blocks before the last byte, and how much of the data is left. -/
theorem nonFinal_bounds (l : Nat) : 128 * Native.nonFinal l ≤ l ∧ l - 128 * Native.nonFinal l ≤ 128 := by
  unfold Native.nonFinal
  omega

section
variable {s : State} {ctx : Ctx} {h0 : Vector Native.Lane64 8} {data : List Byte} {k : Slot}

/-- R130: the staged bytes, padded with zeros, are the block in which the data end. -/
theorem Absorbed.zeroFrom_eq (h : Absorbed h0 data k) :
    zeroFrom k.b k.c.toNat = Native.blockAt data (Native.nonFinal data.length) :=
  zeroFrom_eq_blockAt (by have := nonFinal_bounds data.length; have := h.fill; omega) h.staged

/-- R122: a byte is staged while the buffer is not full, and no block is completed before it. -/
theorem Absorbed.stage (h : Absorbed h0 data k) (hc : k.c.toNat < 128) (x : Byte) :
    Absorbed h0 (data ++ [x]) { k with b := k.b.setIfInBounds k.c.toNat x, c := k.c + 1 } := by
  obtain ⟨hst, hchain, hcount, hfill, hstaged⟩ := h
  have hn : Native.nonFinal (data ++ [x]).length = Native.nonFinal data.length := by
    rw [List.length_append, List.length_singleton]
    unfold Native.nonFinal at hfill ⊢
    omega
  obtain ⟨hle, _⟩ := nonFinal_bounds data.length
  have hnext : (k.c + 1).toNat = k.c.toNat + 1 := BitVec.toNat_add_of_lt (by simp; omega)
  refine ⟨hst, ?chain, ?count, ?fill, fun j hj => ?staged⟩
  case chain => rw [hn, chainAfter_append h0 hle, hchain]
  case count => rw [hn, hcount]
  case fill =>
    rw [hn, hnext, List.length_append, List.length_singleton]
    omega
  case staged =>
    rw [hnext] at hj
    rw [hn, Slot.byteAt, Vector.getElem?_setIfInBounds]
    by_cases hlast : k.c.toNat = j
    · have hplace : 128 * Native.nonFinal data.length + j = data.length := by omega
      rw [if_pos hlast, if_pos (by omega), hplace, List.getElem?_concat_length]
    · rw [if_neg hlast, List.getElem?_append_left (by omega)]
      exact hstaged j (by omega)

/-- R122, R130: a byte that finds the buffer full completes a block, which is compressed at its counter. -/
theorem Absorbed.flush (h : Absorbed h0 data k) (hc : k.c.toNat = 128) (hlen : data.length ≤ 2 ^ 128 - 1) (x : Byte) :
    Absorbed h0 (data ++ [x])
      { k with
        h := compressChain k.h k.b (BitVec.ofNat 128 (k.t.toNat + 128)) false
        t := BitVec.ofNat 128 (k.t.toNat + 128)
        b := k.b.setIfInBounds 0 x
        c := 1 } := by
  have hblock := h.zeroFrom_eq
  rw [hc, zeroFrom_full] at hblock
  obtain ⟨hst, hchain, hcount, hfill, hstaged⟩ := h
  have hlast : data.length = 128 * (Native.nonFinal data.length + 1) := by omega
  have hn : Native.nonFinal (data ++ [x]).length = Native.nonFinal data.length + 1 := by
    rw [List.length_append, List.length_singleton]
    unfold Native.nonFinal at hlast ⊢
    omega
  have ht : k.t.toNat + 128 = 128 * (Native.nonFinal data.length + 1) := by omega
  refine ⟨hst, ?chain, ?count, ?fill, fun j hj => ?staged⟩
  case chain =>
    rw [hn, chainAfter_append h0 hlast.ge, Native.chainAfter, ← hchain, ← hblock, ← ht]
    exact compressionAgreesWithNative64 _ _ _ _
  case count =>
    rw [hn, BitVec.toNat_ofNat]
    omega
  case fill =>
    rw [hn, List.length_append, List.length_singleton]
    simp
    omega
  case staged =>
    obtain rfl : j = 0 := by simpa using hj
    rw [hn, ← hlast, Nat.add_zero data.length, List.getElem?_concat_length, Slot.byteAt, Vector.getElem?_setIfInBounds]
    rfl

/-- R122: UPDB absorbs a byte, while the counter can take it. -/
theorem exec_updb_absorbs (hk : s.slots[ctx.toNat]? = some k) (h : Absorbed h0 data k) (hlen : data.length ≤ 2 ^ 128 - 1)
    (x : Byte) : ∃ k' e, exec (.updb ctx x) s = .next (wrote s ctx k' e) ∧ Absorbed h0 (data ++ [x]) k' := by
  obtain ⟨hle, hrest⟩ := nonFinal_bounds data.length
  obtain hc | hc : k.c.toNat < 128 ∨ k.c.toNat = 128 := by have := h.fill; omega
  · exact ⟨_, _, exec_updb_of_not_full hk h.st hc, h.stage hc x⟩
  · obtain ⟨e, _, hexec⟩ := exec_updb_of_full (data := x) hk h.st hc (by have := h.fill; have := h.count; omega)
    exact ⟨_, e, hexec, h.flush hc hlen x⟩

/-- R123, R130: FINAL makes the final compression, at the length of the data. -/
theorem exec_final_absorbed (hk : s.slots[ctx.toNat]? = some k) (h : Absorbed h0 data k) (hlen : data.length ≤ 2 ^ 128 - 1) :
    ∃ k' e, exec (.final ctx) s = .next (wrote s ctx k' e) ∧ k'.st = .done ∧
      Native.chainLanes k'.h = Native.finalChain h0 data ∧ k'.t.toNat = data.length ∧ k'.nn = k.nn := by
  obtain ⟨hle, hrest⟩ := nonFinal_bounds data.length
  have htotal : k.t.toNat + k.c.toNat = data.length := by have := h.fill; have := h.count; omega
  obtain ⟨e, _, hexec⟩ := exec_final_of_in_range hk h.st (by omega)
  refine ⟨_, e, hexec, rfl, ?_, ?_, rfl⟩
  · rw [Native.finalChain, ← h.chain, ← h.zeroFrom_eq, ← htotal]
    exact compressionAgreesWithNative64 _ _ _ _
  · rw [BitVec.toNat_ofNat, htotal]
    omega

end

end Sys2Proof.Machine
end

section
/-!
Runs in which every command has its effect (spec/30_encoding.md R112, 40_context_commands.md R129): the opening of a context
with its key, the message, FINAL, and the digest read out byte by byte.
-/

namespace Sys2Proof.Machine

open Claims

/-- R259: the commands run from s to t, and each answers OK with DATA 0. -/
def Accepted (is : List Instr) (s t : State) : Prop :=
  runCommands is s = .next t ∧ t.delivered = s.delivered ++ List.replicate is.length ⟨.ok, 0⟩

theorem accepted_nil (s : State) : Accepted [] s s := ⟨rfl, (List.append_nil _).symm⟩

/-- A run that begins with a command that has its effect. -/
theorem accepted_cons {i : Instr} {is : List Instr} {s t : State} {ctx : Ctx} {k : Slot} {e : Engine}
    (h : exec i s = .next (wrote s ctx k e)) (hrest : Accepted is (wrote s ctx k e).deliver t) : Accepted (i :: is) s t := by
  obtain ⟨hrun, hdel⟩ := hrest
  refine ⟨(runCommands_cons h).trans hrun, ?_⟩
  rw [hdel, exec_deliver_delivered h rfl, List.append_assoc, List.singleton_append, ← List.replicate_succ]
  rfl

theorem accepted_append {is js : List Instr} {s t u : State} (h : Accepted is s t) (h' : Accepted js t u) :
    Accepted (is ++ js) s u := by
  obtain ⟨hrun, hdel⟩ := h
  obtain ⟨hrun', hdel'⟩ := h'
  refine ⟨(runCommands_append is js hrun).trans hrun', ?_⟩
  rw [hdel', hdel, List.append_assoc, List.replicate_append_replicate, List.length_append]

section
variable {s : State} {ctx : Ctx} {h0 : Vector Native.Lane64 8} {k : Slot}

/-- R130: the bytes of a message are absorbed one by one. -/
theorem updateCmds_absorb (msg : List Byte) {data : List Byte} (hk : s.slots[ctx.toNat]? = some k)
    (h : Absorbed h0 data k) (hlen : (data ++ msg).length ≤ 2 ^ 128 - 1) :
    ∃ t k', Accepted (updateCmds ctx msg) s t ∧ t.slots[ctx.toNat]? = some k' ∧ Absorbed h0 (data ++ msg) k' := by
  induction msg generalizing s k data with
  | nil => exact ⟨s, k, accepted_nil s, hk, by rwa [List.append_nil]⟩
  | cons x msg ih =>
    have hlt : ctx.toNat < s.slots.length := (List.getElem?_eq_some_iff.mp hk).1
    have hdata : data.length ≤ 2 ^ 128 - 1 := by
      rw [List.length_append] at hlen
      omega
    obtain ⟨k₁, e, hexec, habs⟩ := exec_updb_absorbs hk h hdata x
    rw [List.append_cons] at hlen ⊢
    obtain ⟨t, k', hrun, hk', habs'⟩ := ih (deliver_wrote_slot hlt k₁ e) habs (by simpa using hlen)
    exact ⟨t, k', accepted_cons hexec hrun, hk', habs'⟩

/-- R121: the missing bytes of a key are all accepted. -/
theorem keyCmds_accepted (x : Byte) (xs : List Byte) (hk : s.slots[ctx.toNat]? = some k) (hst : k.st = .keying)
    (hmissing : k.c.toNat + xs.length + 1 = k.kk.toNat) : ∃ t, Accepted (keyCmds ctx (x :: xs)) s t := by
  have hkk : k.kk.toNat < 2 ^ 7 := k.kk.isLt
  have hlt : ctx.toNat < s.slots.length := (List.getElem?_eq_some_iff.mp hk).1
  induction xs generalizing x s k with
  | nil => exact ⟨_, accepted_cons (exec_keyb_of_last hk hst (by omega) hmissing) (accepted_nil _)⟩
  | cons y ys ih =>
    rw [List.length_cons] at hmissing
    have hexec := exec_keyb_of_ne_last (data := x) hk hst (by omega) (by omega)
    have hc : (k.c + 1).toNat = k.c.toNat + 1 := BitVec.toNat_add_of_lt (by simp; omega)
    have hmissing' : (k.c + 1).toNat + ys.length + 1 = k.kk.toNat := by omega
    have hnext := deliver_wrote_slot hlt { k with b := k.b.setIfInBounds k.c.toNat x, c := k.c + 1 } s.engine
    obtain ⟨t, ht⟩ := ih y hnext hst hmissing' hkk (List.getElem?_eq_some_iff.mp hnext).1
    exact ⟨t, accepted_cons hexec ht⟩

end

/-- R112, R129: what is asked of the operands that open a context. -/
structure OpensContext (s : State) (ctx : Ctx) (nn : Nat) (key : Option (List Byte)) : Prop where
  slot : ctx.toNat < s.slots.length
  digest_pos : 1 ≤ nn
  digest_le : nn ≤ 64
  key_range : ∀ ks, key = some ks → 1 ≤ ks.length ∧ ks.length ≤ 64

section
variable {s : State} {ctx : Ctx} {nn : Nat} {key : Option (List Byte)}

/-- R129: the context that INIT creates for a digest length and an optional key. -/
def openedSlot (nn : Nat) (key : Option (List Byte)) : Slot :=
  freshSlot key.isSome (BitVec.ofNat 8 (key.getD []).length) (BitVec.ofNat 8 nn)

theorem OpensContext.key_le (h : OpensContext s ctx nn key) : (key.getD []).length ≤ 64 := by
  cases key with
  | none => exact Nat.zero_le 64
  | some ks => exact (h.key_range ks rfl).2

/-- R120: INIT with operands in range opens the context. -/
theorem OpensContext.exec_init (h : OpensContext s ctx nn key) :
    exec (initCmd ctx (BitVec.ofNat 8 nn) (key.map fun ks => BitVec.ofNat 8 ks.length)) s =
      .next (wrote s ctx (openedSlot nn key) s.engine) := by
  have hnn : nnInRange (BitVec.ofNat 8 nn) = true := by
    rw [nnInRange_iff, BitVec.toNat_ofNat]
    have := h.digest_pos
    have := h.digest_le
    omega
  cases key with
  | none => exact Machine.exec_init h.slot hnn (by decide)
  | some ks =>
    obtain ⟨hlo, hhi⟩ := h.key_range ks rfl
    refine Machine.exec_init h.slot hnn ((kkInRange_iff _ _).mpr ⟨fun _ => ?_, nofun⟩)
    rw [BitVec.toNat_ofNat]
    omega

/-- R120: the fields of the new context that depend on the operands. -/
theorem OpensContext.openedSlot_fields (h : OpensContext s ctx nn key) :
    Native.chainLanes (openedSlot nn key).h = Native.initChain nn (key.getD []).length ∧
    (openedSlot nn key).kk.toNat = (key.getD []).length ∧ (openedSlot nn key).nn.toNat = nn := by
  have hkey := h.key_le
  have hnn := h.digest_le
  have hkk8 : (BitVec.ofNat 8 (key.getD []).length).toNat = (key.getD []).length := by rw [BitVec.toNat_ofNat]; omega
  have hnn8 : (BitVec.ofNat 8 nn).toNat = nn := by rw [BitVec.toNat_ofNat]; omega
  rw [openedSlot, freshSlot_eq, hkk8, hnn8]
  refine ⟨chainLanes_init hnn hkey, ?_, ?_⟩
  · rw [BitVec.toNat_ofNat]
    omega
  · rw [BitVec.toNat_ofNat]
    omega

/-- R120, R129: the opening commands are all accepted. -/
theorem OpensContext.accepted (h : OpensContext s ctx nn key) : ∃ t, Accepted (openCmds ctx nn key) s t := by
  have hslot := deliver_wrote_slot h.slot (openedSlot nn key) s.engine
  have hinit := h.exec_init
  obtain ⟨_, hkk, _⟩ := h.openedSlot_fields
  cases key with
  | none => exact ⟨_, accepted_cons hinit (accepted_nil _)⟩
  | some ks =>
    obtain ⟨x, xs, rfl⟩ := List.exists_cons_of_length_pos (h.key_range ks rfl).1
    have hmissing : 0 + xs.length + 1 = (openedSlot nn (some (x :: xs))).kk.toNat := by
      rw [hkk, Nat.zero_add]
      rfl
    obtain ⟨t, ht⟩ := keyCmds_accepted x xs hslot rfl hmissing
    exact ⟨t, accepted_cons hinit ht⟩

/-- R129: the key block is one block. -/
theorem length_keyBlock {ks : List Byte} (h : ks.length ≤ 64) : (Native.keyBlock (some ks)).length = 128 := by
  rw [Native.keyBlock, List.length_append, List.length_replicate]
  omega

/-- R129, R130: the opening commands absorb the key block. -/
theorem OpensContext.absorbs (h : OpensContext s ctx nn key) :
    ∃ t k, Accepted (openCmds ctx nn key) s t ∧ t.slots[ctx.toNat]? = some k ∧
      Absorbed (Native.initChain nn (key.getD []).length) (Native.keyBlock key) k := by
  have hslot := deliver_wrote_slot h.slot (openedSlot nn key) s.engine
  have hinit := h.exec_init
  obtain ⟨hchain, _, _⟩ := h.openedSlot_fields
  obtain ⟨t, hrun, hdel⟩ := h.accepted
  cases key with
  | none => exact ⟨_, _, accepted_cons hinit (accepted_nil _), hslot, rfl, hchain, rfl, rfl, fun j hj => by cases hj⟩
  | some ks =>
    obtain ⟨hlo, hhi⟩ := h.key_range ks rfl
    obtain ⟨t', k, hrun', hk, hh, hb, hc, ht, hst⟩ := keyPathState s ctx nn ks h.slot h.digest_pos h.digest_le hlo hhi
    cases hrun.symm.trans hrun'
    have hlen := length_keyBlock hhi
    refine ⟨t, k, ⟨hrun, hdel⟩, hk, hst, ?chain, ?count, ?fill, fun j hj => ?staged⟩
    case chain => rw [hlen, hh]; exact chainLanes_init h.digest_le hhi
    case count => rw [hlen, ht]; rfl
    case fill => rw [hlen, hc]; rfl
    case staged =>
      have hstart : 128 * Native.nonFinal 128 + j = j := by simp [Native.nonFinal]
      rw [hlen, hstart, Native.keyBlock, ← hb, Vector.getElem?_toList]
      rfl

/-- R129, R130: the opening commands and the message absorb the key block and the message. -/
theorem OpensContext.absorbs_message (h : OpensContext s ctx nn key) {msg : List Byte}
    (hlen : (Native.keyBlock key ++ msg).length ≤ 2 ^ 128 - 1) :
    ∃ t k, Accepted (openCmds ctx nn key ++ updateCmds ctx msg) s t ∧ t.slots[ctx.toNat]? = some k ∧
      Absorbed (Native.initChain nn (key.getD []).length) (Native.keyBlock key ++ msg) k := by
  obtain ⟨u, k, hopen, hk, habs⟩ := h.absorbs
  obtain ⟨t, k', hmsg, hk', habs'⟩ := updateCmds_absorb msg hk habs hlen
  exact ⟨t, k', accepted_append hopen hmsg, hk', habs'⟩

/-- R26: a run without INIT leaves every slot's digest length. -/
theorem runCommands_digestLength {is : List Instr} {t : State} (his : ∀ i ∈ is, isInit i = false)
    (h : runCommands is s = .next t) (j : Nat) : (t.slots[j]?).map Slot.nn = (s.slots[j]?).map Slot.nn := by
  induction is generalizing s with
  | nil => cases h; rfl
  | cons i is ih =>
    obtain ⟨u, hu, hrest⟩ := exec_of_runCommands h
    have hlengths := congrArg (Option.map Prod.fst) (onlyInitSetsLengths i s u (his i List.mem_cons_self) hu j)
    rw [Option.map_map, Option.map_map] at hlengths
    rw [ih (fun i' hi' => his i' (List.mem_cons_of_mem i hi')) hrest, deliver_slots]
    exact hlengths

/-- R26, R120: the digest length of the context stays while the key and the message arrive. -/
theorem OpensContext.digestLength (h : OpensContext s ctx nn key) {msg : List Byte} {t : State} {k : Slot}
    (hrun : runCommands (openCmds ctx nn key ++ updateCmds ctx msg) s = .next t) (hk : t.slots[ctx.toNat]? = some k) :
    k.nn.toNat = nn := by
  rw [openCmds, List.cons_append, runCommands_cons h.exec_init] at hrun
  have hkept := runCommands_digestLength (fun i hi => ?_) hrun ctx.toNat
  · rw [hk, deliver_wrote_slot h.slot] at hkept
    obtain ⟨_, _, hnn⟩ := h.openedSlot_fields
    rw [Option.some.inj hkept, hnn]
  · rcases List.mem_append.mp hi with hkey | hmsg
    · obtain ⟨_, _, rfl⟩ := List.mem_map.mp hkey
      rfl
    · obtain ⟨_, _, rfl⟩ := List.mem_map.mp hmsg
      rfl

end

/-- Settles O55: the opening commands and the message absorb the data, and FINAL makes the final compression. -/
theorem messageIsFoldedBlockByBlock : Obligations.MessageIsFoldedBlockByBlock := by
  intro s ctx nn key msg hctx hlo hhi hkey hlen
  have hopen : OpensContext s ctx nn key := ⟨hctx, hlo, hhi, hkey⟩
  obtain ⟨t, k, ⟨hrun, _⟩, hk, habs⟩ := hopen.absorbs_message hlen
  obtain ⟨k', e, hfinal, hdone, hchain, hcount, _⟩ := exec_final_absorbed hk habs hlen
  have hk' : (wrote t ctx k' e).slots[ctx.toNat]? = some k' :=
    List.getElem?_set_self (List.getElem?_eq_some_iff.mp hk).1
  exact ⟨t, _, k, k', hrun, hk, habs.st, habs.chain, habs.count, habs.fill, habs.staged, hfinal, hk', hdone, hchain, hcount⟩

/-- R63: byte i of the digest, from the lanes. -/
def digestByteOfLanes (h : Vector Native.Lane64 8) (i : Nat) : Byte := (h.toList.getD (i / 8) 0 >>> (8 * (i % 8))).setWidth 8

/-- R63, R22: byte i of the digest view is byte i of the lanes. -/
theorem digestByte_eq_ofLanes (h : Chain) {i : Nat} (hi : i < 64) :
    digestByte h i hi = digestByteOfLanes (Native.chainLanes h) i := by
  obtain ⟨_, hlane⟩ := digestIsLittleEndianChain h ⟨i, hi⟩
  rw [hlane, digestByteOfLanes, BitVec.setWidth_ushiftRight_eq_extractLsb, List.getD_eq_getElem?_getD,
    Vector.getElem?_toList, Vector.getElem?_eq_getElem (by omega), Option.getD_some]

/-- R124, R63: RDDIG of a run of indexes in range answers those bytes of the digest. -/
theorem digest_answers {ctx : Ctx} {s : State} {k : Slot} (hk : s.slots[ctx.toNat]? = some k) (hst : k.st = .done)
    (hnn : k.nn.toNat ≤ 64) (is : List Nat) (his : ∀ i ∈ is, i < k.nn.toNat) :
    ∃ t, runCommands (is.map fun i => .rddig ctx (BitVec.ofNat 8 i)) s = .next t ∧
      t.delivered = s.delivered ++ is.map fun i => ⟨.ok, (digestByteOfLanes (Native.chainLanes k.h) i).setWidth 32⟩ := by
  induction is generalizing s with
  | nil => exact ⟨s, rfl, (List.append_nil _).symm⟩
  | cons i is ih =>
    have hi := his i List.mem_cons_self
    have hidx : (BitVec.ofNat 8 i).toNat = i := by rw [BitVec.toNat_ofNat]; omega
    have hexec : exec (.rddig ctx (BitVec.ofNat 8 i)) s = _ :=
      exec_of_reading hk (.rddig (idx := BitVec.ofNat 8 i) (by omega) hst (by omega))
    rw [digestByte_eq_ofLanes, hidx] at hexec
    obtain ⟨t, hrun, hdel⟩ := ih (s := (answered s .ok _).deliver) hk fun j hj => his j (List.mem_cons_of_mem i hj)
    refine ⟨t, (runCommands_cons hexec).trans hrun, ?_⟩
    rw [hdel, exec_deliver_delivered hexec rfl, List.append_assoc]
    rfl

/-- Settles O56: the commands up to FINAL are accepted, and RDDIG of 0 to nn - 1 reads the final chaining lanes. -/
theorem hashAnswersDigest : Obligations.HashAnswersDigest := by
  intro s ctx nn key msg hctx hlo hhi hkey hlen
  have hopen : OpensContext s ctx nn key := ⟨hctx, hlo, hhi, hkey⟩
  obtain ⟨t, k, hacc, hk, habs⟩ := hopen.absorbs_message hlen
  have hnn := hopen.digestLength hacc.1 hk
  obtain ⟨k', e, hfinal, hdone, hchain, _, hnn'⟩ := exec_final_absorbed hk habs hlen
  have hk' := deliver_wrote_slot (List.getElem?_eq_some_iff.mp hk).1 k' e
  obtain ⟨hrun, hdel⟩ := accepted_append hacc (accepted_cons hfinal (accepted_nil _))
  have hrange : k'.nn.toNat = nn := by rw [hnn', hnn]
  obtain ⟨u, hread, hbytes⟩ := digest_answers hk' hdone (by omega) (List.range nn)
    fun i hi => hrange ▸ List.mem_range.mp hi
  refine ⟨u, ?run, ?answers⟩
  case run =>
    have hsplit : hashCmds ctx nn key msg =
        (openCmds ctx nn key ++ updateCmds ctx msg ++ [.final ctx]) ++ digestCmds ctx nn := by
      simp [hashCmds, openCmds]
    rw [hsplit]
    exact (runCommands_append _ _ hrun).trans hread
  case answers =>
    have hcount : (openCmds ctx nn key ++ updateCmds ctx msg ++ [Instr.final ctx]).length =
        (key.getD []).length + msg.length + 2 := by
      simp [openCmds, keyCmds, updateCmds]
      omega
    rw [hbytes, hdel, hchain, hcount, Native.blake2b, Native.digestBytes, List.map_map]
    rfl

end Sys2Proof.Machine
end
